-- ==== Sys2Proof/Word.lean ====
section
/-!
DEFINITION. The plain data types of the block: bytes, nibbles, the 16-byte header buffer and literals
(10_state.md rules R13 and R15, 20_memory.md rule R40).
-/

namespace Sys2Proof

/-- A byte; bit 0 is the least significant (R6, R41). -/
abbrev Byte := BitVec 8

/-- A 4-bit field of a byte (R6). -/
abbrev Nibble := BitVec 4

/-- The 16 bytes of a header, byte-addressed by the offsets 0 to 15 (R40). There is no other offset. -/
abbrev Buffer := Vector Byte 16

/-- A literal: a finite sequence of bytes of any length, in text order (R15, R44). -/
abbrev Literal := List Byte

end Sys2Proof
end

