-- ==== Sys2Proof/Syntax.lean ====
section
/-!
DEFINITION. The commands of the block: one constructor per row of the opcode map, 30_encoding.md rule R51.
No command has an operand field; its operands are the input registers its rule names (R50).
-/

namespace Sys2Proof

/-- The nine commands of R51. -/
inductive Instr where
  /-- `ENCODE` (R140) -/
  | encode
  /-- `DECODE` (R160) -/
  | decode
  /-- `PARSE_SIZE` (R101) -/
  | parseSize
  /-- `ENC_ROM_SIZE.PRG` (R104) -/
  | encRomSizePrg
  /-- `ENC_ROM_SIZE.CHR` (R105) -/
  | encRomSizeChr
  /-- `DEC_ROM_SIZE.PRG` (R107) -/
  | decRomSizePrg
  /-- `DEC_ROM_SIZE.CHR` (R108) -/
  | decRomSizeChr
  /-- `ENC_RAM_SIZE` (R110) -/
  | encRamSize
  /-- `DEC_RAM_SIZE` (R112) -/
  | decRamSize
  deriving DecidableEq, Repr

end Sys2Proof
end

