-- ==== Sys2Proof/WellFormed.lean ====
section
/-!
DEFINITION. What is well formed before anything runs: a command word by its fields (30_encoding.md rule R50), an
instruction, and a literal by its syntax (R73).
-/

namespace Sys2Proof

/-- The field conditions of R50 on a command word: `FAM` is bits 7:4 and `OP` bits 3:0. Family 0 has the two codec
commands, family 1 the literal parse, family 2 has `OP` bits 3:2 clear, family 3 has `OP` bits 3:1 clear. -/
def wfWord (c : Byte) : Bool :=
  let fam : Nibble := c.extractLsb' 4 4
  let op : Nibble := c.extractLsb' 0 4
  if fam = 0 then op == 1 || op == 2
  else if fam = 1 then op == 0
  else if fam = 2 then op.extractLsb' 2 2 == 0
  else if fam = 3 then op.extractLsb' 1 3 == 0
  else false

/-- Every instruction is well formed: none has an operand (R50: "No command has an operand field"). -/
def Instr.wf : Instr → Bool
  | .encode => true
  | .decode => true
  | .parseSize => true
  | .encRomSizePrg => true
  | .encRomSizeChr => true
  | .decRomSizePrg => true
  | .decRomSizeChr => true
  | .encRamSize => true
  | .decRamSize => true

/-- A decimal digit byte, 0x30 to 0x39 (R73). -/
def isDigitByte (c : Byte) : Bool := 0x30 ≤ c.toNat && c.toNat ≤ 0x39

/-- `^\d+[KM]?$` read from left to right (R73); `seen` says that a digit has been read. -/
def wfLiteralFrom (seen : Bool) : Literal → Bool
  | [] => seen
  | c :: rest => if isDigitByte c then wfLiteralFrom true rest else seen && rest.isEmpty && (c == 0x4B#8 || c == 0x4D#8)

/-- A well formed literal: one or more digits, then nothing, or one `K`, or one `M` (R73). -/
def wfLiteral (s : Literal) : Bool := wfLiteralFrom false s

end Sys2Proof
end

