-- ==== Sys2Proof/Decode.lean ====
section
/-!
DEFINITION. The decoder of command words, written from the opcode map (30_encoding.md rule R51), and the encoder,
written from the two fields of the command word (R50). A value that is no command is rejected by name (R52).
-/

namespace Sys2Proof

/-- Why a command word is rejected. -/
inductive DecodeReject where
  /-- One of the 247 values that are no command (R52); safe: the step then raises IllegalCommand, as R213 says. -/
  | illegalCommand (c : Byte)
  deriving DecidableEq, Repr

/-- The rows of R51, each matched on all 8 bits. -/
def opcodeMap : List (Byte × Instr) :=
  [(0x01#8, .encode),
   (0x02#8, .decode),
   (0x10#8, .parseSize),
   (0x20#8, .encRomSizePrg),
   (0x21#8, .encRomSizeChr),
   (0x22#8, .decRomSizePrg),
   (0x23#8, .decRomSizeChr),
   (0x30#8, .encRamSize),
   (0x31#8, .decRamSize)]

/-- The command a CMD value stands for (R51), or its rejection (R52). -/
def decode (c : Byte) : Except DecodeReject Instr :=
  match opcodeMap.find? (fun row => row.1 == c) with
  | some row => .ok row.2
  | none => .error (.illegalCommand c)

/-- `FAM`, bits 7:4 of the command word (R50): 0 header codec, 1 literal parse, 2 ROM-class size, 3 RAM-class size. -/
def famOf : Instr → Nibble
  | .encode => 0
  | .decode => 0
  | .parseSize => 1
  | .encRomSizePrg => 2
  | .encRomSizeChr => 2
  | .decRomSizePrg => 2
  | .decRomSizeChr => 2
  | .encRamSize => 3
  | .decRamSize => 3

/-- `OP`, bits 3:0 of the command word (R50). In families 2 and 3 one bit is the direction (0 encode, 1 decode), and in
family 2 bit 0 is the unit (0 PRG, 1 CHR). -/
def opOf : Instr → Nibble
  | .encode => 0b0001
  | .decode => 0b0010
  | .parseSize => 0b0000
  | .encRomSizePrg => 0b0000
  | .encRomSizeChr => 0b0001
  | .decRomSizePrg => 0b0010
  | .decRomSizeChr => 0b0011
  | .encRamSize => 0b0000
  | .decRamSize => 0b0001

/-- The command word of an instruction: `FAM` above `OP` (R50). -/
def encode (i : Instr) : Byte := famOf i ++ opOf i

/-- The mnemonic of a command, spelled as R51 spells it (R53). -/
def mnemonicOf : Instr → String
  | .encode => "ENCODE"
  | .decode => "DECODE"
  | .parseSize => "PARSE_SIZE"
  | .encRomSizePrg => "ENC_ROM_SIZE.PRG"
  | .encRomSizeChr => "ENC_ROM_SIZE.CHR"
  | .decRomSizePrg => "DEC_ROM_SIZE.PRG"
  | .decRomSizeChr => "DEC_ROM_SIZE.CHR"
  | .encRamSize => "ENC_RAM_SIZE"
  | .decRamSize => "DEC_RAM_SIZE"

/-- The instruction the decoder reads from an opcode-table word. A command word is exactly one byte (R50), so only the
width 8 holds one. -/
def decodeTableWord (nbits w : Nat) : Option Instr :=
  if nbits = 8 ∧ w < 256 then (decode (BitVec.ofNat 8 w)).toOption else none

end Sys2Proof
end

