-- ==== Sys2Proof/Config.lean ====
section
/-!
DEFINITION. The implementation parameters of 00_scope.md rule R5, each with the default the rule gives it, and the one
free value of the model. The OPEN parameters have no default and no place here: `LIT_IN_MAX` (the model's literals have
no bound, R15) and `ENUM_STRINGS` (outside the block, R4).
-/

namespace Sys2Proof.Config

/-- `BYTECOUNT_W`: the width of every byte count (R5). -/
abbrev bytecountW : Nat := 64

/-- `FIELD_W`: the width of `mapper` and `submapper` in a record (R5). -/
abbrev fieldW : Nat := 64

/-- `SIGNATURE`: bytes 0 to 3 of a header (R5, R54). PRESUMED by the spec itself, see log entry 7. -/
def signature : Vector Byte 4 := #v[0x4E#8, 0x45#8, 0x53#8, 0x1A#8]

/-- `EXP_ENC_MAX`: the largest exponent the ROM-class encode search tries (R5). -/
def expEncMax : Nat := 59

/-- `EXP_DEC_MAX`: the largest exponent the ROM-class decode accepts (R5). -/
def expDecMax : Nat := 60

/-- `PRG_UNIT`: the PRG-ROM unit size, in units of 1024 bytes (R5). -/
def prgUnit : Nat := 16

/-- `CHR_UNIT`: the CHR-ROM unit size, in units of 1024 bytes (R5). -/
def chrUnit : Nat := 8

/-- `LINEAR_MAX`: the largest unit count of the linear ROM form (R5). -/
def linearMax : Nat := 0xEFF

/-- `RAM_COUNT_MAX`: the largest RAM shift count (R5). -/
def ramCountMax : Nat := 15

/-- FREE VALUE (log entry 6): what the work buffer WB holds once an error has discarded it or a host reset has left it
unspecified (R205, R29). It has no body, so nothing can be proved about it; the argument is `State.freeIdx`, so that
each use may be a different value. -/
opaque discardedWb : Nat → Buffer

end Sys2Proof.Config
end

