-- ==== Sys2Proof/Machine/Types.lean ====
section
/-!
DEFINITION. The types of the block's registers: the enumerations (10_state.md rules R16 to R20), the header record
(R14), error kinds and field identifiers (60_exceptions.md rules R201 and R202), the detail (R23), the names of the
registers (R13), the actions of the host (70_reset_and_hazards.md rule R240) and the lines of a host program
(30_encoding.md rule R53).
-/

namespace Sys2Proof.Machine

/-- A byte count, `BYTECOUNT_W` bits (R5, R13). -/
abbrev ByteCount := BitVec Config.bytecountW

/-- An unsigned record field, `FIELD_W` bits (R5, R14). -/
abbrev FieldVal := BitVec Config.fieldW

/-- `Mirroring` (R16). -/
inductive Mirroring where
  | vertical
  | horizontal
  | fourScreens
  deriving DecidableEq, Repr

/-- `Console` (R17), in the order of its codes 0x0 to 0xF (R65). -/
inductive Console where
  | nes
  | vsSystem
  | playchoice10
  | nesWithDecimal
  | nesWithEPSM
  | vt01
  | vt02
  | vt03
  | vt09
  | vt32
  | vt369
  | um6539
  | famicomNetworkSystem
  | reservedD
  | reservedE
  | reservedF
  deriving DecidableEq, Repr

/-- `Timing` (R18), in the order of its codes 0 to 3 (R66). -/
inductive Timing where
  | rp2c02
  | rp2c07
  | multiple
  | ua6538
  deriving DecidableEq, Repr

/-- `VsPpu` (R19), in the order of its codes 0x0 to 0xF (R67). -/
inductive VsPpu where
  | any
  | reserved1
  | rp2c04_0001
  | rp2c04_0002
  | rp2c04_0003
  | rp2c04_0004
  | reserved6
  | reserved7
  | rc2c05_01
  | rc2c05_02
  | rc2c05_03
  | rc2c05_04
  | reservedC
  | reservedD
  | reservedE
  | reservedF
  deriving DecidableEq, Repr

/-- `VsHardware` (R20), in the order of its codes 0x0 to 0x6 (R68). -/
inductive VsHardware where
  | unisystemNormal
  | unisystemRbiBaseball
  | unisystemTkoBoxing
  | unisystemSuperXevious
  | unisystemIceClimberJapan
  | dualSystemNormal
  | dualSystemRaidOnBungelingBay
  deriving DecidableEq, Repr

/-- `Record`, the header record (R14). An absent field and a field present with its default are different records. -/
structure Record where
  mapper : FieldVal
  submapper : Option FieldVal := none
  mirroring : Option Mirroring := none
  battery : Option Bool := none
  trainer : Option Bool := none
  console : Option Console := none
  timing : Option Timing := none
  vsPpu : Option VsPpu := none
  vsHardware : Option VsHardware := none
  prgRom : Literal
  prgRam : Option Literal := none
  prgNvram : Option Literal := none
  chrRom : Literal
  chrRam : Option Literal := none
  chrNvram : Option Literal := none
  deriving DecidableEq, Repr

/-- The error kinds with codes 1 to 11 (R201). -/
inductive ErrKind where
  | mapperTooLarge
  | submapperTooLarge
  | invalidRomSize
  | invalidRamSize
  | invalidLiteral
  | overflow
  | badSignature
  | badFormatMarker
  | invalidVariantCode
  | tooLarge
  | illegalCommand
  deriving DecidableEq, Repr

/-- The field identifiers with codes 0 to 11 (R202). -/
inductive FieldId where
  | none
  | mapper
  | submapper
  | prgRom
  | chrRom
  | prgRam
  | prgNvram
  | chrRam
  | chrNvram
  | signature
  | formatMarker
  | vsHardware
  deriving DecidableEq, Repr

/-- `Detail`, the value ERR_DETAIL holds (R23). -/
inductive Detail where
  | noDetail
  | num (n : BitVec 64)
  | text (s : Literal)
  deriving DecidableEq, Repr

/-- An error on its way to `raise`: its kind, field and detail (R8, R205). -/
structure Err where
  kind : ErrKind
  field : FieldId
  detail : Detail
  deriving DecidableEq, Repr

/-- The input registers (R13, R24). -/
inductive InReg where
  | inRec
  | inBuf
  | inLit
  | inCount
  | inLo
  | inHi
  | inCode
  deriving DecidableEq, Repr

/-- The output registers (R13, R25). -/
inductive OutReg where
  | outBuf
  | outRec
  | outCount
  | outLit
  | outLo
  | outHi
  | outCode
  deriving DecidableEq, Repr

/-- The registers a host can read: all of R13 but WB (R240). -/
inductive HostReg where
  | cmd
  | status
  | errDetail
  | input (r : InReg)
  | output (r : OutReg)
  deriving DecidableEq, Repr

/-- The registers a host can read and not write (R13). -/
inductive ReadOnlyReg where
  | status
  | errDetail
  | output (r : OutReg)
  deriving DecidableEq, Repr

/-- A host write to an input register: the register and a value of its type (R240). A value outside the type, which the
host must never present, cannot be formed. -/
inductive InputWrite where
  | inRec (v : Record)
  | inBuf (v : Buffer)
  | inLit (v : Literal)
  | inCount (v : ByteCount)
  | inLo (v : Byte)
  | inHi (v : Nibble)
  | inCode (v : Nibble)
  deriving DecidableEq, Repr

/-- What a host read answers: the value of the register read (R240). -/
inductive RegValue where
  | byte (v : Byte)
  | nibble (v : Nibble)
  | status (v : BitVec 16)
  | detail (v : Detail)
  | record (v : Record)
  | buffer (v : Buffer)
  | literal (v : Literal)
  | count (v : ByteCount)
  deriving DecidableEq, Repr

/-- One interaction of the host with the block (R240). -/
inductive HostAction where
  /-- write an input register -/
  | setInput (w : InputWrite)
  /-- write CMD, which starts the command in the same step (R21) -/
  | setCmd (c : Byte)
  /-- write a read-only register, which has no effect (R13) -/
  | setReadOnly (r : ReadOnlyReg)
  /-- read a register -/
  | read (r : HostReg)
  /-- reset the block (R230) -/
  | reset
  deriving DecidableEq, Repr

/-- A line of a host program (R53). -/
inductive ProgramLine where
  /-- `set REG, value` of an input register -/
  | set (w : InputWrite)
  /-- `set CMD, c` -/
  | setCmd (c : Byte)
  /-- `cmd MNEMONIC` -/
  | cmd (i : Instr)
  /-- `expect REG = value`, `none` being no value -/
  | expect (r : HostReg) (v : Option RegValue)
  /-- `; text` -/
  | comment
  deriving DecidableEq, Repr

end Sys2Proof.Machine
end

