-- ==== Sys2Proof/Machine/Codes.lean ====
section
/-!
DEFINITION. The numeric codes: enumeration codes and members (30_encoding.md rules R65 to R68, 10_state.md rule R16),
error kinds and field identifiers (60_exceptions.md rules R201 and R202).
-/

namespace Sys2Proof.Machine

/-- The code of a physical `Mirroring` register (R16). -/
def Mirroring.code : Mirroring → BitVec 2
  | .vertical => 0
  | .horizontal => 1
  | .fourScreens => 2

/-- The members of `Console` by code, 0x0 first (R65). -/
def consoleTable : Vector Console 16 :=
  #v[.nes, .vsSystem, .playchoice10, .nesWithDecimal, .nesWithEPSM, .vt01, .vt02, .vt03,
     .vt09, .vt32, .vt369, .um6539, .famicomNetworkSystem, .reservedD, .reservedE, .reservedF]

/-- `Member_Console(k)`: every 4-bit code is a member (R17). -/
def Console.ofCode (k : Nibble) : Console := consoleTable[k.toFin]

/-- `Code(c)` of a console (R65). -/
def Console.code : Console → Nibble
  | .nes => 0x0
  | .vsSystem => 0x1
  | .playchoice10 => 0x2
  | .nesWithDecimal => 0x3
  | .nesWithEPSM => 0x4
  | .vt01 => 0x5
  | .vt02 => 0x6
  | .vt03 => 0x7
  | .vt09 => 0x8
  | .vt32 => 0x9
  | .vt369 => 0xA
  | .um6539 => 0xB
  | .famicomNetworkSystem => 0xC
  | .reservedD => 0xD
  | .reservedE => 0xE
  | .reservedF => 0xF

/-- The members of `Timing` by code (R66). -/
def timingTable : Vector Timing 4 := #v[.rp2c02, .rp2c07, .multiple, .ua6538]

/-- `Member_Timing(k)` (R66). -/
def Timing.ofCode (k : BitVec 2) : Timing := timingTable[k.toFin]

/-- `Code(t)` of a timing (R66). -/
def Timing.code : Timing → BitVec 2
  | .rp2c02 => 0
  | .rp2c07 => 1
  | .multiple => 2
  | .ua6538 => 3

/-- The members of `VsPpu` by code, 0x0 first (R67). -/
def vsPpuTable : Vector VsPpu 16 :=
  #v[.any, .reserved1, .rp2c04_0001, .rp2c04_0002, .rp2c04_0003, .rp2c04_0004, .reserved6, .reserved7,
     .rc2c05_01, .rc2c05_02, .rc2c05_03, .rc2c05_04, .reservedC, .reservedD, .reservedE, .reservedF]

/-- `Member_VsPpu(k)`: every 4-bit code is a member (R19). -/
def VsPpu.ofCode (k : Nibble) : VsPpu := vsPpuTable[k.toFin]

/-- `Code(p)` of a Vs-System PPU (R67). -/
def VsPpu.code : VsPpu → Nibble
  | .any => 0x0
  | .reserved1 => 0x1
  | .rp2c04_0001 => 0x2
  | .rp2c04_0002 => 0x3
  | .rp2c04_0003 => 0x4
  | .rp2c04_0004 => 0x5
  | .reserved6 => 0x6
  | .reserved7 => 0x7
  | .rc2c05_01 => 0x8
  | .rc2c05_02 => 0x9
  | .rc2c05_03 => 0xA
  | .rc2c05_04 => 0xB
  | .reservedC => 0xC
  | .reservedD => 0xD
  | .reservedE => 0xE
  | .reservedF => 0xF

/-- The members of `VsHardware` by code (R68). -/
def vsHardwareTable : List VsHardware :=
  [.unisystemNormal, .unisystemRbiBaseball, .unisystemTkoBoxing, .unisystemSuperXevious,
   .unisystemIceClimberJapan, .dualSystemNormal, .dualSystemRaidOnBungelingBay]

/-- `Member_VsHardware(h)`; codes 7 to 15 name no member (R20, R68). -/
def VsHardware.ofCode (k : Nibble) : Option VsHardware := vsHardwareTable[k.toNat]?

/-- `Code(h)` of a Vs-System hardware variant (R68). -/
def VsHardware.code : VsHardware → Nibble
  | .unisystemNormal => 0x0
  | .unisystemRbiBaseball => 0x1
  | .unisystemTkoBoxing => 0x2
  | .unisystemSuperXevious => 0x3
  | .unisystemIceClimberJapan => 0x4
  | .dualSystemNormal => 0x5
  | .dualSystemRaidOnBungelingBay => 0x6

/-- `Code(E)`: the STATUS.ERR_KIND code of an error kind (R201). -/
def ErrKind.code : ErrKind → Nibble
  | .mapperTooLarge => 1
  | .submapperTooLarge => 2
  | .invalidRomSize => 3
  | .invalidRamSize => 4
  | .invalidLiteral => 5
  | .overflow => 6
  | .badSignature => 7
  | .badFormatMarker => 8
  | .invalidVariantCode => 9
  | .tooLarge => 10
  | .illegalCommand => 11

/-- `Code(field)`: the STATUS.ERR_FIELD code of a field identifier (R202). -/
def FieldId.code : FieldId → Nibble
  | .none => 0
  | .mapper => 1
  | .submapper => 2
  | .prgRom => 3
  | .chrRom => 4
  | .prgRam => 5
  | .prgNvram => 6
  | .chrRam => 7
  | .chrNvram => 8
  | .signature => 9
  | .formatMarker => 10
  | .vsHardware => 11

end Sys2Proof.Machine
end

