-- ==== Sys2Proof/Machine/Flags.lean ====
section
/-!
DEFINITION. The STATUS register, 10_state.md rule R22. The block has no condition flags (R12); the outcome of the last
command is the STATE field of STATUS.
-/

namespace Sys2Proof.Machine

/-- `STATUS.STATE`, bits 1:0: 0 IDLE, 1 OK, 2 ERROR (R22). -/
def statusState (v : BitVec 16) : BitVec 2 := v.extractLsb' 0 2

/-- `STATUS.ERR_KIND`, bits 7:4 (R22). -/
def statusKind (v : BitVec 16) : Nibble := v.extractLsb' 4 4

/-- `STATUS.ERR_FIELD`, bits 11:8 (R22). -/
def statusField (v : BitVec 16) : Nibble := v.extractLsb' 8 4

/-- The reserved bits of STATUS, 3:2 and 15:12, which always read 0 (R22). -/
def statusReserved (v : BitVec 16) : BitVec 16 := v &&& 0xF00C

/-- The STATUS of a successful command (R22, R99). -/
def statusOk : BitVec 16 := 0x0001

/-- The STATUS of an error: STATE = ERROR, the kind in bits 7:4 and the field in bits 11:8 (R205). -/
def statusError (k : ErrKind) (f : FieldId) : BitVec 16 :=
  0x0002#16 ||| (k.code.zeroExtend 16 <<< 4) ||| (f.code.zeroExtend 16 <<< 8)

end Sys2Proof.Machine
end

