-- ==== Sys2Proof/Machine/State.lean ====
section
/-!
DEFINITION. The state of the block: the registers of 10_state.md rule R13, with the host's pending actions
(70_reset_and_hazards.md rules R239 and R240) and the counter of the free values used. Reset values: R29.
-/

namespace Sys2Proof.Machine

/-- Why the machine stops with a fault. Neither is an error of STATUS (R212). -/
inductive Fault where
  /-- A command found an input register it reads unset (R27, R98). Raised by `withInput`; safe: the spec gives the
  command no outcome there, and a run that meets it proves nothing (R212). -/
  | unsetInput (r : InReg)
  /-- The host read an input register that holds `none` (D30: "`none` faults on read"). Raised by `State.readReg`;
  safe (log entry 4). -/
  | readUnsetInput (r : InReg)
  /-- The host read an output register that holds `none` (R234). Raised by `State.readReg`; safe (log entry 4). -/
  | readUnsetOutput (r : OutReg)
  deriving DecidableEq, Repr

/-- Why a step has no meaning. -/
inductive Refusal where
  /-- An instruction without a meaning in this model. Raised by an arm of `exec` only; safe. No arm of this model
  raises it: every command has its meaning. -/
  | notModelled (mnemonic : String)
  deriving DecidableEq, Repr

/-- The state. `Option` is R13's "Opt": a register that holds a value or holds `none`. -/
structure State where
  /-- `CMD` (R21) -/
  cmd : Byte
  /-- `STATUS` (R22) -/
  status : BitVec 16
  /-- `ERR_DETAIL` (R23) -/
  errDetail : Detail
  /-- `IN_REC`: record to encode -/
  inRec : Option Record
  /-- `IN_BUF`: buffer to decode -/
  inBuf : Option Buffer
  /-- `IN_LIT`: literal to parse -/
  inLit : Option Literal
  /-- `IN_COUNT`: byte count to encode -/
  inCount : Option ByteCount
  /-- `IN_LO`: ROM size low byte to decode -/
  inLo : Option Byte
  /-- `IN_HI`: ROM size high nibble to decode -/
  inHi : Option Nibble
  /-- `IN_CODE`: RAM shift count to decode -/
  inCode : Option Nibble
  /-- `OUT_BUF`: ENCODE result -/
  outBuf : Option Buffer
  /-- `OUT_REC`: DECODE result -/
  outRec : Option Record
  /-- `OUT_COUNT`: byte count result -/
  outCount : Option ByteCount
  /-- `OUT_LIT`: rendered literal result -/
  outLit : Option Literal
  /-- `OUT_LO`: ROM size low byte result -/
  outLo : Option Byte
  /-- `OUT_HI`: ROM size high nibble result -/
  outHi : Option Nibble
  /-- `OUT_CODE`: RAM shift count result -/
  outCode : Option Nibble
  /-- `WB`: the work buffer of ENCODE, never observable (R26) -/
  wb : Buffer
  /-- The host's actions still to come, oldest first (R239). The model's own field (log entry 1). -/
  pending : List HostAction
  /-- How many free values have been used. The model's own field (log entry 6). -/
  freeIdx : Nat
  deriving DecidableEq, Repr

/-- The state right after reset (R29). WB, which R29 leaves unspecified, holds zeros (DESIGN CHOICE, log entry 5); no
host action is pending (log entry 1). -/
def State.reset : State where
  cmd := 0x00
  status := 0x0000
  errDetail := .noDetail
  inRec := none
  inBuf := none
  inLit := none
  inCount := none
  inLo := none
  inHi := none
  inCode := none
  outBuf := none
  outRec := none
  outCount := none
  outLit := none
  outLo := none
  outHi := none
  outCode := none
  wb := Vector.replicate 16 0
  pending := []
  freeIdx := 0

end Sys2Proof.Machine
end

