-- ==== Sys2Proof/Machine/Ops.lean ====
section
/-!
DEFINITION. The named operations: byte and nibble access to a buffer (00_scope.md rule R8, 20_memory.md rules R40 to
R45), the opening and the two ends of a command (40_size_codec.md rules R98 and R99, 60_exceptions.md rule R205).
-/

namespace Sys2Proof.Machine

/-- `b[i]`: the byte at offset i. -/
def byteAt (b : Buffer) (i : Fin 16) : Byte := b[i]

/-- `WB[i] <- WB[i] | v` (R140: fields are ORed into the work buffer). -/
def orAt (b : Buffer) (i : Fin 16) (v : Byte) : Buffer := b.set i (b[i] ||| v)

/-- `v[3:0]` of a byte (R6). -/
def lowNibble (v : Byte) : Nibble := v.extractLsb' 0 4

/-- `v[7:4]` of a byte (R6). -/
def highNibble (v : Byte) : Nibble := v.extractLsb' 4 4

/-- A nibble in bits 3:0 of a byte. -/
def inLow (k : Nibble) : Byte := 0#4 ++ k

/-- A nibble in bits 7:4 of a byte, `k << 4`. -/
def inHigh (k : Nibble) : Byte := k ++ 0#4

/-- A bit in position p of a byte when the condition holds, else 0. -/
def bitIf (c : Bool) (p : Nat) : Byte := if c then 1#8 <<< p else 0

/-- `MemRead(addr, n)`: the n bytes from addr, little-endian, the byte at addr in bits 7:0 (R8, R43). -/
def memRead (b : Buffer) : (addr n : Nat) → addr + n ≤ 16 → Nat
  | _, 0, _ => 0
  | addr, n + 1, h => b[addr].toNat + 256 * memRead b (addr + 1) n (by omega)

/-- `MemWrite(addr, n, v)`: the n bytes of v, little-endian, at addr (R8). -/
def memWrite (b : Buffer) : (addr n : Nat) → Nat → addr + n ≤ 16 → Buffer
  | _, 0, _, _ => b
  | addr, n + 1, v, h => memWrite (b.set addr (BitVec.ofNat 8 v)) (addr + 1) n (v / 256) (by omega)

/-- `Num(n)` of a number below 2^64 (R23). -/
def Detail.ofNat (n : Nat) : Detail := .num (BitVec.ofNat 64 n)

/-- Step 2 of `Begin`: every output register becomes `none` (R98, R25). -/
def clearOutputs (s : State) : State :=
  { s with outBuf := none, outRec := none, outCount := none, outLit := none, outLo := none, outHi := none, outCode := none }

/-- `Succeed()` (R99). -/
def succeed (s : State) : State := { s with status := statusOk, errDetail := .noDetail }

/-- WB holds a value nothing constrains: the next free value (R26, R205; log entry 6). -/
def discardWb (s : State) : State := { s with wb := Config.discardedWb s.freeIdx, freeIdx := s.freeIdx + 1 }

/-- `raise E(field, detail)`, the one way every error is taken (R205): STATUS and ERR_DETAIL are written and WB is
discarded; the outputs stay as `Begin` left them, and CMD and the inputs do not change. There is no handler and no
return (R205, R207): the next CMD write starts afresh. -/
def raise (e : Err) (s : State) : State :=
  { discardWb s with status := statusError e.kind e.field, errDetail := e.detail }

/-- A command from the end of step 1 of `Begin` on: clear the outputs, then either write the outputs computed and
succeed, or raise the error found (R98, R99, R206). -/
def complete (result : Except Err (State → State)) (s : State) : Host.Outcome State Fault Refusal :=
  match result with
  | .ok write => .next (succeed (write (clearOutputs s)))
  | .error e => .next (raise e (clearOutputs s))

end Sys2Proof.Machine
end

