-- ==== Sys2Proof/Machine/SizeCodec.lean ====
section
/-!
DEFINITION. The functions of the Size Codec (40_size_codec.md): ParseLit, EncRom, DecRom, EncRam, DecRam, RenderRom,
RenderRam and DecStr. All arithmetic is exact on natural numbers (00_scope.md rule R7). `field` is the field an error
reports.
-/

namespace Sys2Proof.Machine

/-- `2^BYTECOUNT_W - 1`, the largest byte count (R100). -/
def maxCount : Nat := 2 ^ Config.bytecountW - 1

/-- The exact decimal value of a digit string, most significant digit first (R100). -/
def decValue (d : Literal) : Nat := d.foldl (fun v c => 10 * v + (c.toNat - 0x30)) 0

/-- The digit portion and the multiplier of a literal: its last byte may be `K` or `M` (R100). -/
def splitSuffix (s : Literal) : Literal × Nat :=
  match s.getLast? with
  | some c =>
    if c = 0x4B#8 then (s.dropLast, 1024)
    else if c = 0x4D#8 then (s.dropLast, 1048576)
    else (s, 1)
  | none => (s, 1)

/-- `ParseLit(s, field)` (R100). An empty literal, an empty digit portion, a byte that is no digit and a digit portion
beyond `maxCount` raise InvalidLiteral; a product beyond `maxCount` raises Overflow. -/
def parseLit (s : Literal) (field : FieldId) : Except Err Nat :=
  let (d, mult) := splitSuffix s
  if d = [] then .error ⟨.invalidLiteral, field, .text s⟩
  else if !d.all isDigitByte then .error ⟨.invalidLiteral, field, .text s⟩
  else if decValue d > maxCount then .error ⟨.invalidLiteral, field, .text s⟩
  else if decValue d * mult > maxCount then .error ⟨.overflow, field, .text s⟩
  else .ok (decValue d * mult)

/-- The ASCII byte of a decimal digit. -/
def digitByte (n : Nat) : Byte := BitVec.ofNat 8 (0x30 + n)

/-- The decimal digits of n, most significant first, found with at most `fuel` divisions. -/
def decDigits : (fuel : Nat) → (n : Nat) → Literal
  | 0, _ => []
  | fuel + 1, n => if n < 10 then [digitByte n] else decDigits fuel (n / 10) ++ [digitByte (n % 10)]

/-- `DecStr(n)`: no leading zero, and "0" for 0 (R8). n + 1 divisions always suffice. -/
def decStr (n : Nat) : Literal := decDigits (n + 1) n

/-- `RenderRom(n)` (R120). It cannot fail, its output is a well formed literal, and `parseLit` reads a count DecRom returns
back from it (R123). -/
def renderRom (n : Nat) : Literal :=
  if n = 0 then [0x30#8, 0x4B#8]
  else if n % 1048576 = 0 then decStr (n / 1048576) ++ [0x4D#8]
  else if n % 1024 = 0 then decStr (n / 1024) ++ [0x4B#8]
  else decStr n

/-- `RenderRam(n)` (R121): it never uses `M`. It cannot fail, its output is a well formed literal, and `parseLit` reads a
count DecRam returns back from it (R123). -/
def renderRam (n : Nat) : Literal :=
  if n % 1024 = 0 then decStr (n / 1024) ++ [0x4B#8] else decStr n

/-- The byte count of an exponent form, `2^exp * (2*mul + 1)` (R71). -/
def expCount (exp mul : Nat) : Nat := 2 ^ exp * (2 * mul + 1)

/-- The exponent search of R102, in its normative order (R103): exponents ascending, then multipliers 0 to 3. -/
def searchExp (n : Nat) : Option (Nat × Nat) :=
  (List.range (Config.expEncMax + 1)).findSome? fun exp =>
    (List.range 4).findSome? fun mul =>
      if expCount exp mul = n then some (exp, mul) else none

/-- `EncRom(n, unit, field)` (R102): the low byte and the high nibble of a ROM-class size, linear form first. -/
def encRom (n unit : Nat) (field : FieldId) : Except Err (Byte × Nibble) :=
  let l := 1024 * unit
  if n % l = 0 ∧ n / l ≤ Config.linearMax then
    let u : BitVec 12 := BitVec.ofNat 12 (n / l)
    .ok (u.extractLsb' 0 8, u.extractLsb' 8 4)
  else
    match searchExp n with
    | some (exp, mul) => .ok (BitVec.ofNat 8 ((exp <<< 2) ||| mul), 0xF#4)
    | none => .error ⟨.invalidRomSize, field, .ofNat n⟩

/-- `DecRom(lo, hi, unit, field)` (R106): the byte count and its literal. -/
def decRom (lo : Byte) (hi : Nibble) (unit : Nat) (field : FieldId) : Except Err (Nat × Literal) :=
  if hi = 0xF#4 then
    let exp := (lo.extractLsb' 2 6).toNat
    let mul := (lo.extractLsb' 0 2).toNat
    if exp > Config.expDecMax then .error ⟨.tooLarge, field, .ofNat exp⟩
    else .ok (expCount exp mul, renderRom (expCount exp mul))
  else
    let n := (hi ++ lo).toNat * 1024 * unit
    .ok (n, renderRom n)

/-- `EncRam(n, field)` (R109): the 4-bit shift count, searched in ascending order. -/
def encRam (n : Nat) (field : FieldId) : Except Err Nibble :=
  if n = 0 then .ok 0
  else
    match (List.range' 1 Config.ramCountMax).find? (fun c => 64 <<< c == n) with
    | some c => .ok (BitVec.ofNat 4 c)
    | none => .error ⟨.invalidRamSize, field, .ofNat n⟩

/-- The byte count of a shift count: 0 for 0, else `64 << c` (R72, R111). -/
def ramCount (c : Nibble) : Nat := if c = 0 then 0 else 64 <<< c.toNat

/-- `DecRam(c)` (R111): the byte count and its literal; it cannot fail. -/
def decRam (c : Nibble) : Nat × Literal := (ramCount c, renderRam (ramCount c))

end Sys2Proof.Machine
end

