-- ==== Sys2Proof/Machine/HeaderCodec.lean ====
section
/-!
DEFINITION. The functions of the Header Codec (41_header_codec.md): a record to a 16-byte buffer (section 1) and a
buffer to a record (section 2), each step under the name its rule gives it. The layout is 30_encoding.md Part B.
-/

namespace Sys2Proof.Machine

/-! ### ENCODE -/

/-- `InitWB()` (R141): the signature, zeros, and the format marker 0b10 in byte 7. -/
def initWb : Buffer :=
  orAt #v[Config.signature[0], Config.signature[1], Config.signature[2], Config.signature[3],
          0, 0, 0, 0, 0, 0, 0, 0, 0, 0, 0, 0] 7 0b10

/-- `EncRom(ParseLit(s, f), unit, f)`: a ROM-class field of a record (R150). -/
def romField (s : Literal) (unit : Nat) (f : FieldId) : Except Err (Byte × Nibble) := do
  let n ← parseLit s f
  encRom n unit f

/-- `Ram(x, f)`: a RAM-class field of a record; an absent one is 0 (R151). -/
def ramField (x : Option Literal) (f : FieldId) : Except Err Nibble :=
  match x with
  | none => .ok 0
  | some v => do
    let n ← parseLit v f
    encRam n f

/-- `PackRomSizes(r)` (R150): bytes 4, 5 and 9; PRG-ROM in full before CHR-ROM. -/
def packRomSizes (r : Record) (wb : Buffer) : Except Err Buffer := do
  let (plo, phi) ← romField r.prgRom Config.prgUnit .prgRom
  let (clo, chi) ← romField r.chrRom Config.chrUnit .chrRom
  return orAt (orAt (orAt wb 4 plo) 5 clo) 9 (inLow phi ||| inHigh chi)

/-- `CheckMapper(r)` (R142). -/
def checkMapper (r : Record) : Except Err Unit :=
  if r.mapper.toNat > 0xFFF then .error ⟨.mapperTooLarge, .mapper, .ofNat r.mapper.toNat⟩ else .ok ()

/-- `PackMapper(r)` (R143): bytes 6, 7 and 8. -/
def packMapper (r : Record) (wb : Buffer) : Buffer :=
  let m := r.mapper
  orAt (orAt (orAt wb 6 (inHigh (m.extractLsb' 0 4))) 7 (inHigh (m.extractLsb' 4 4))) 8 (inLow (m.extractLsb' 8 4))

/-- The submapper of a record; an absent one is 0 (R144). -/
def submapperOf (r : Record) : FieldVal := r.submapper.getD 0

/-- `CheckSubmapper(r)` (R144). -/
def checkSubmapper (r : Record) : Except Err Unit :=
  if (submapperOf r).toNat > 0xF then .error ⟨.submapperTooLarge, .submapper, .ofNat (submapperOf r).toNat⟩ else .ok ()

/-- `PackSubmapper(r)` (R145): byte 8. -/
def packSubmapper (r : Record) (wb : Buffer) : Buffer :=
  orAt wb 8 (inHigh ((submapperOf r).extractLsb' 0 4))

/-- `PackFlags(r)` (R146): byte 6. FourScreens leaves bit 0 clear (R58). -/
def packFlags (r : Record) (wb : Buffer) : Buffer :=
  let mir := r.mirroring.getD .vertical
  let bat := r.battery.getD false
  let trn := r.trainer.getD false
  orAt wb 6 (bitIf (mir = .horizontal) 0 ||| bitIf bat 1 ||| bitIf trn 2 ||| bitIf (mir = .fourScreens) 3)

/-- The console of a record; an absent one is `Nes` (R147). -/
def consoleOf (r : Record) : Console := r.console.getD .nes

/-- `PackConsole(r)` (R147): byte 7 bits 3:2, and byte 13 bits 3:0 for an extended console. -/
def packConsole (r : Record) (wb : Buffer) : Buffer :=
  let k := (consoleOf r).code
  if k.toNat ≤ 2 then orAt wb 7 (inLow k <<< 2)
  else orAt (orAt wb 7 (0b11#8 <<< 2)) 13 (inLow k)

/-- `PackTiming(r)` (R148): byte 12. -/
def packTiming (r : Record) (wb : Buffer) : Buffer :=
  orAt wb 12 ((r.timing.getD .rp2c02).code.zeroExtend 8)

/-- `PackVs(r)` (R149): byte 13, only for the console `VsSystem`. -/
def packVs (r : Record) (wb : Buffer) : Buffer :=
  if consoleOf r = .vsSystem then
    orAt wb 13 (inLow (r.vsPpu.getD .any).code ||| inHigh (r.vsHardware.getD .unisystemNormal).code)
  else wb

/-- `PackRamSizes(r)` (R151): bytes 10 and 11, the four fields in order. -/
def packRamSizes (r : Record) (wb : Buffer) : Except Err Buffer := do
  let a ← ramField r.prgRam .prgRam
  let b ← ramField r.prgNvram .prgNvram
  let c ← ramField r.chrRam .chrRam
  let d ← ramField r.chrNvram .chrNvram
  return orAt (orAt wb 10 (inLow a ||| inHigh b)) 11 (inLow c ||| inHigh d)

/-- The work buffer of ENCODE, filled in the order of R140, or the first error met. -/
def encodeRecord (r : Record) : Except Err Buffer := do
  let wb ← packRomSizes r initWb
  checkMapper r
  let wb := packMapper r wb
  let wb := packFlags r wb
  let wb := packConsole r wb
  checkSubmapper r
  let wb := packSubmapper r wb
  let wb ← packRamSizes r wb
  let wb := packTiming r wb
  return packVs r wb

/-! ### DECODE -/

/-- `CheckSignature(b)` (R161), byte by byte (R43); the detail is `MemRead(0, 4)`. -/
def checkSignature (b : Buffer) : Except Err Unit :=
  if byteAt b 0 = Config.signature[0] ∧ byteAt b 1 = Config.signature[1] ∧
     byteAt b 2 = Config.signature[2] ∧ byteAt b 3 = Config.signature[3] then .ok ()
  else .error ⟨.badSignature, .signature, .ofNat (memRead b 0 4 (by decide))⟩

/-- `b[7][1:0]`, the format marker (R59). -/
def markerOf (b : Buffer) : BitVec 2 := (byteAt b 7).extractLsb' 0 2

/-- `CheckMarker(b)` (R162). -/
def checkMarker (b : Buffer) : Except Err Unit :=
  if markerOf b = 0b10#2 then .ok () else .error ⟨.badFormatMarker, .formatMarker, .ofNat (markerOf b).toNat⟩

/-- `UnpackMapper(b)` (R164). -/
def unpackMapper (b : Buffer) : FieldVal :=
  (lowNibble (byteAt b 8) ++ highNibble (byteAt b 7) ++ highNibble (byteAt b 6)).zeroExtend Config.fieldW

/-- The submapper, `b[8][7:4]` (R165). -/
def unpackSubmapper (b : Buffer) : FieldVal := (highNibble (byteAt b 8)).zeroExtend Config.fieldW

/-- The mirroring of `UnpackFlags(b)` (R166): bit 3 overrides bit 0. -/
def unpackMirroring (b : Buffer) : Mirroring :=
  if (byteAt b 6).getLsbD 3 then .fourScreens
  else if (byteAt b 6).getLsbD 0 then .horizontal
  else .vertical

/-- The battery flag of `UnpackFlags(b)` (R166). -/
def unpackBattery (b : Buffer) : Bool := (byteAt b 6).getLsbD 1

/-- The trainer flag of `UnpackFlags(b)` (R166). -/
def unpackTrainer (b : Buffer) : Bool := (byteAt b 6).getLsbD 2

/-- `b[7][3:2]`, the 2-bit console code (R69). -/
def consoleCodeOf (b : Buffer) : BitVec 2 := (byteAt b 7).extractLsb' 2 2

/-- `UnpackConsole(b)` (R167): 0b11 selects the extension nibble of byte 13. -/
def unpackConsole (b : Buffer) : Console :=
  if consoleCodeOf b = 0b11#2 then .ofCode (lowNibble (byteAt b 13))
  else .ofCode ((consoleCodeOf b).zeroExtend 4)

/-- The timing, `Member_Timing(b[12][1:0])` (R168). -/
def unpackTiming (b : Buffer) : Timing := .ofCode ((byteAt b 12).extractLsb' 0 2)

/-- `UnpackVs(b, con)`, the variant gate (R169). -/
def unpackVs (b : Buffer) (con : Console) : Except Err (Option VsPpu × Option VsHardware) :=
  if con = .vsSystem then
    match VsHardware.ofCode (highNibble (byteAt b 13)) with
    | some hw => .ok (some (.ofCode (lowNibble (byteAt b 13))), some hw)
    | none => .error ⟨.invalidVariantCode, .vsHardware, .ofNat (highNibble (byteAt b 13)).toNat⟩
  else .ok (none, none)

/-- A decoded RAM-class field: the literal part of `DecRam` (R170). -/
def unpackRam (c : Nibble) : Literal := (decRam c).2

/-- The record DECODE reads from a buffer, in the check order of R160, or the first error met. -/
def decodeBuffer (b : Buffer) : Except Err Record := do
  checkSignature b
  checkMarker b
  let (_, ps) ← decRom (byteAt b 4) (lowNibble (byteAt b 9)) Config.prgUnit .prgRom
  let (_, cs) ← decRom (byteAt b 5) (highNibble (byteAt b 9)) Config.chrUnit .chrRom
  let con := unpackConsole b
  let (ppu, hw) ← unpackVs b con
  return {
    mapper := unpackMapper b
    submapper := some (unpackSubmapper b)
    mirroring := some (unpackMirroring b)
    battery := some (unpackBattery b)
    trainer := some (unpackTrainer b)
    console := some con
    timing := some (unpackTiming b)
    vsPpu := ppu
    vsHardware := hw
    prgRom := ps
    prgRam := some (unpackRam (lowNibble (byteAt b 10)))
    prgNvram := some (unpackRam (highNibble (byteAt b 10)))
    chrRom := cs
    chrRam := some (unpackRam (lowNibble (byteAt b 11)))
    chrNvram := some (unpackRam (highNibble (byteAt b 11))) }

end Sys2Proof.Machine
end

