-- ==== Sys2Proof/Machine/Operands.lean ====
section
/-!
DEFINITION. The operand forms: a command's operands are the input registers its rule names (30_encoding.md rules R50 and
R51), read by `Begin` (40_size_codec.md rule R98); a host reads and writes registers by name (70_reset_and_hazards.md
rule R240).
-/

namespace Sys2Proof.Machine

/-- The "reads" column of R51, in the order of each command's `Begin`. -/
def reads : Instr → List InReg
  | .encode => [.inRec]
  | .decode => [.inBuf]
  | .parseSize => [.inLit]
  | .encRomSizePrg => [.inCount]
  | .encRomSizeChr => [.inCount]
  | .decRomSizePrg => [.inLo, .inHi]
  | .decRomSizeChr => [.inLo, .inHi]
  | .encRamSize => [.inCount]
  | .decRamSize => [.inCode]

/-- The "writes on success" column of R51. -/
def writes : Instr → List OutReg
  | .encode => [.outBuf]
  | .decode => [.outRec]
  | .parseSize => [.outCount]
  | .encRomSizePrg => [.outLo, .outHi]
  | .encRomSizeChr => [.outLo, .outHi]
  | .decRomSizePrg => [.outCount, .outLit]
  | .decRomSizeChr => [.outCount, .outLit]
  | .encRamSize => [.outCode]
  | .decRamSize => [.outCount, .outLit]

/-- Step 1 of `Begin` for one register: its value, or the model fault UnsetInput (R27, R98). -/
def withInput {α : Type} (r : InReg) (v : Option α) (k : α → Host.Outcome State Fault Refusal) :
    Host.Outcome State Fault Refusal :=
  match v with
  | some x => k x
  | none => .fault (.unsetInput r)

/-- What an input register holds, if it is set. -/
def State.input (s : State) : InReg → Option RegValue
  | .inRec => s.inRec.map .record
  | .inBuf => s.inBuf.map .buffer
  | .inLit => s.inLit.map .literal
  | .inCount => s.inCount.map .count
  | .inLo => s.inLo.map .byte
  | .inHi => s.inHi.map .nibble
  | .inCode => s.inCode.map .nibble

/-- What an output register holds, if it holds a value. -/
def State.output (s : State) : OutReg → Option RegValue
  | .outBuf => s.outBuf.map .buffer
  | .outRec => s.outRec.map .record
  | .outCount => s.outCount.map .count
  | .outLit => s.outLit.map .literal
  | .outLo => s.outLo.map .byte
  | .outHi => s.outHi.map .nibble
  | .outCode => s.outCode.map .nibble

/-- A host read (R240): the register's value; reading a register that holds `none` faults (R234, D30). -/
def State.readReg (s : State) : HostReg → Except Fault RegValue
  | .cmd => .ok (.byte s.cmd)
  | .status => .ok (.status s.status)
  | .errDetail => .ok (.detail s.errDetail)
  | .input r =>
    match s.input r with
    | some v => .ok v
    | none => .error (.readUnsetInput r)
  | .output r =>
    match s.output r with
    | some v => .ok v
    | none => .error (.readUnsetOutput r)

/-- A host write to an input register (R24, R240). -/
def writeInput (w : InputWrite) (s : State) : State :=
  match w with
  | .inRec v => { s with inRec := some v }
  | .inBuf v => { s with inBuf := some v }
  | .inLit v => { s with inLit := some v }
  | .inCount v => { s with inCount := some v }
  | .inLo v => { s with inLo := some v }
  | .inHi v => { s with inHi := some v }
  | .inCode v => { s with inCode := some v }

/-- The register an input write goes to. -/
def InputWrite.reg : InputWrite → InReg
  | .inRec _ => .inRec
  | .inBuf _ => .inBuf
  | .inLit _ => .inLit
  | .inCount _ => .inCount
  | .inLo _ => .inLo
  | .inHi _ => .inHi
  | .inCode _ => .inCode

/-- The value an input write carries. -/
def InputWrite.value : InputWrite → RegValue
  | .inRec v => .record v
  | .inBuf v => .buffer v
  | .inLit v => .literal v
  | .inCount v => .count v
  | .inLo v => .byte v
  | .inHi v => .nibble v
  | .inCode v => .nibble v

end Sys2Proof.Machine
end

