-- ==== Sys2Proof/Machine/HeaderCommands.lean ====
section
/-!
DEFINITION. The meanings of the two Header Codec commands (41_header_codec.md).
-/

namespace Sys2Proof.Machine

/-- ENCODE's work buffer, and its copy to OUT_BUF in the same step (R26, R140). -/
def putBuffer (b : Buffer) (s : State) : State := { s with wb := b, outBuf := some b }

/-- Write a new record to OUT_REC as one value (R28). -/
def putRecord (r : Record) (s : State) : State := { s with outRec := some r }

/-- `ENCODE` (R140). -/
def execEncode (s : State) : Host.Outcome State Fault Refusal :=
  withInput .inRec s.inRec fun r => complete ((encodeRecord r).map putBuffer) s

/-- `DECODE` (R160): IN_BUF is read once (R46). -/
def execDecode (s : State) : Host.Outcome State Fault Refusal :=
  withInput .inBuf s.inBuf fun b => complete ((decodeBuffer b).map putRecord) s

end Sys2Proof.Machine
end

