-- ==== Sys2Proof/Machine/SizeCommands.lean ====
section
/-!
DEFINITION. The meanings of the seven Size Codec commands (40_size_codec.md). Each reads its input registers (R98) and
passes the field `NONE`.
-/

namespace Sys2Proof.Machine

/-- Write a byte count to OUT_COUNT. -/
def putCount (n : Nat) (s : State) : State := { s with outCount := some (BitVec.ofNat Config.bytecountW n) }

/-- Write a byte count and its literal to OUT_COUNT and OUT_LIT. -/
def putCountLit (p : Nat × Literal) (s : State) : State :=
  { s with outCount := some (BitVec.ofNat Config.bytecountW p.1), outLit := some p.2 }

/-- Write a low byte and a high nibble to OUT_LO and OUT_HI. -/
def putLoHi (p : Byte × Nibble) (s : State) : State := { s with outLo := some p.1, outHi := some p.2 }

/-- Write a shift count to OUT_CODE. -/
def putCode (c : Nibble) (s : State) : State := { s with outCode := some c }

/-- The shared form of R104 and R105. -/
def encRomCommand (unit : Nat) (s : State) : Host.Outcome State Fault Refusal :=
  withInput .inCount s.inCount fun n => complete ((encRom n.toNat unit .none).map putLoHi) s

/-- The shared form of R107 and R108. -/
def decRomCommand (unit : Nat) (s : State) : Host.Outcome State Fault Refusal :=
  withInput .inLo s.inLo fun lo =>
    withInput .inHi s.inHi fun hi => complete ((decRom lo hi unit .none).map putCountLit) s

/-- `PARSE_SIZE` (R101). -/
def execParseSize (s : State) : Host.Outcome State Fault Refusal :=
  withInput .inLit s.inLit fun lit => complete ((parseLit lit .none).map putCount) s

/-- `ENC_ROM_SIZE.PRG` (R104). -/
def execEncRomSizePrg (s : State) : Host.Outcome State Fault Refusal := encRomCommand Config.prgUnit s

/-- `ENC_ROM_SIZE.CHR` (R105). -/
def execEncRomSizeChr (s : State) : Host.Outcome State Fault Refusal := encRomCommand Config.chrUnit s

/-- `DEC_ROM_SIZE.PRG` (R107). -/
def execDecRomSizePrg (s : State) : Host.Outcome State Fault Refusal := decRomCommand Config.prgUnit s

/-- `DEC_ROM_SIZE.CHR` (R108). -/
def execDecRomSizeChr (s : State) : Host.Outcome State Fault Refusal := decRomCommand Config.chrUnit s

/-- `ENC_RAM_SIZE` (R110). -/
def execEncRamSize (s : State) : Host.Outcome State Fault Refusal :=
  withInput .inCount s.inCount fun n => complete ((encRam n.toNat .none).map putCode) s

/-- `DEC_RAM_SIZE` (R112). -/
def execDecRamSize (s : State) : Host.Outcome State Fault Refusal :=
  withInput .inCode s.inCode fun c => complete (.ok (putCountLit (decRam c))) s

end Sys2Proof.Machine
end

