-- ==== Sys2Proof/Machine/Dispatch.lean ====
section
/-!
DEFINITION. One arm per command: each is one call of the command's own meaning.
-/

namespace Sys2Proof.Machine

def exec (i : Instr) (s : State) : Host.Outcome State Fault Refusal :=
  match i with
  | .encode => Sys2Proof.Machine.execEncode s
  | .decode => Sys2Proof.Machine.execDecode s
  | .parseSize => Sys2Proof.Machine.execParseSize s
  | .encRomSizePrg => Sys2Proof.Machine.execEncRomSizePrg s
  | .encRomSizeChr => Sys2Proof.Machine.execEncRomSizeChr s
  | .decRomSizePrg => Sys2Proof.Machine.execDecRomSizePrg s
  | .decRomSizeChr => Sys2Proof.Machine.execDecRomSizeChr s
  | .encRamSize => Sys2Proof.Machine.execEncRamSize s
  | .decRamSize => Sys2Proof.Machine.execDecRamSize s

end Sys2Proof.Machine
end

