-- ==== Sys2Proof/Machine/Fetch.lean ====
section
/-!
DEFINITION. How a command comes to run: the host's actions (70_reset_and_hazards.md rules R236, R239, R240), taken from
`State.pending` oldest first. A CMD write runs its command in the same step (10_state.md rule R21); a value that is no
command raises IllegalCommand (60_exceptions.md rule R213).
-/

namespace Sys2Proof.Machine

/-- The error of a CMD value that is no command (R213). -/
def illegalErr (c : Byte) : Err := ⟨.illegalCommand, .none, .ofNat c.toNat⟩

/-- A host write of c to CMD (R21): CMD takes c, and the command c stands for runs. An illegal value performs
`Begin([])` and raises IllegalCommand (R213). -/
def runCommand (c : Byte) (s : State) : Host.Outcome State Fault Refusal :=
  match Sys2Proof.decode c with
  | .ok i => exec i { s with cmd := c }
  | .error (.illegalCommand v) => complete (.error (illegalErr v)) { s with cmd := c }

/-- Reset as an event of the host (R230): every register takes its value of R29; WB, which R29 leaves unspecified, takes
a free value (log entry 6); the host's later actions are still to come. -/
def resetBlock (s : State) : State :=
  discardWb { State.reset with pending := s.pending, freeIdx := s.freeIdx }

/-- One action of the host on the block (R240). -/
def hostAct (a : HostAction) (s : State) : Host.Outcome State Fault Refusal :=
  match a with
  | .setInput w => .next (writeInput w s)
  | .setCmd c => runCommand c s
  | .setReadOnly _ => .next s
  | .read r =>
    match s.readReg r with
    | .ok _ => .next s
    | .error f => .fault f
  | .reset => .next (resetBlock s)

/-- One step: the oldest pending action of the host, or nothing when none is pending (the block is idle and holds its
registers, R220; log entry 2). -/
def hostStep (s : State) : Host.Outcome State Fault Refusal :=
  match s.pending with
  | [] => .next s
  | a :: rest => hostAct a { s with pending := rest }

/-- The pseudo-instruction `cmd MNEMONIC`: a write of the mnemonic's code to CMD (R53). -/
def cmdAction (i : Instr) : HostAction := .setCmd (Sys2Proof.encode i)

/-- The host actions of a program line; `expect` and comments are no action of the block (R53). -/
def lineActions : ProgramLine → List HostAction
  | .set w => [.setInput w]
  | .setCmd c => [.setCmd c]
  | .cmd i => [cmdAction i]
  | .expect _ _ => []
  | .comment => []

/-- s with a host program to come before the host's other actions (R53, log entry 1). -/
def loadProgram (lines : List ProgramLine) (s : State) : State :=
  { s with pending := lines.flatMap lineActions ++ s.pending }

/-- Put a write of the command word w to CMD before the host's other actions (log entry 1). -/
def placeWord (s : State) (_nbits w : Nat) : State := { s with pending := .setCmd (BitVec.ofNat 8 w) :: s.pending }

end Sys2Proof.Machine
end

