-- ==== Sys2Proof/Machine/Step.lean ====
section
/-!
DEFINITION. One step of the machine: one host action, and with a CMD write the whole command it starts
(70_reset_and_hazards.md rule R236).
-/

namespace Sys2Proof.Machine

/-- One step (R236, R239). -/
def step (s : State) : Host.Outcome State Fault Refusal := hostStep s

/-- s with a write of the command word w to CMD as the host's next action, so that the next step runs that command. The
block fetches nothing (R11), so nothing else is placed: the command's inputs are the host's to set first (R232). -/
def State.withFetchWord (s : State) (nbits w : Nat) : State := placeWord s nbits w

end Sys2Proof.Machine
end

