-- ==== Sys2Proof/Safety.lean ====
section
/-!
DEFINITION. The terms the statements use: a host that keeps its duties (70_reset_and_hazards.md rules R232 to R234), what
no command changes, how a command can end, the invariant of the machine, and the vocabulary of the round-trip laws
(41_header_codec.md rule R180).
-/

namespace Sys2Proof.Machine

/-! ### The host's duties -/

/-- Every input the command reads is set (R232). -/
def inputsSet (i : Instr) (s : State) : Bool := (reads i).all fun r => (s.input r).isSome

/-- What the host owes the block before an action: set inputs before a command (R232), a value in the register before a
read (R234; D30 for inputs). -/
def dutyKept (a : HostAction) (s : State) : Bool :=
  match a with
  | .setInput _ => true
  | .setCmd c =>
    match Sys2Proof.decode c with
    | .ok i => inputsSet i s
    | .error _ => true
  | .setReadOnly _ => true
  | .read .cmd => true
  | .read .status => true
  | .read .errDetail => true
  | .read (.input r) => (s.input r).isSome
  | .read (.output r) => (s.output r).isSome
  | .reset => true

/-- A safe state: the host's next action, if it has one, keeps the host's duties. -/
def hostDutiful (s : State) : Bool :=
  match s.pending with
  | [] => true
  | a :: _ => dutyKept a s

/-- What a host read answers (R240): the value of the register read, for every register of R13 but WB. An input or output
register that holds `none` has no value to answer. -/
structure HostReads (s : State) : Prop where
  cmd : s.readReg .cmd = .ok (.byte s.cmd)
  status : s.readReg .status = .ok (.status s.status)
  errDetail : s.readReg .errDetail = .ok (.detail s.errDetail)
  inRec : ∀ v, s.inRec = some v → s.readReg (.input .inRec) = .ok (.record v)
  inBuf : ∀ v, s.inBuf = some v → s.readReg (.input .inBuf) = .ok (.buffer v)
  inLit : ∀ v, s.inLit = some v → s.readReg (.input .inLit) = .ok (.literal v)
  inCount : ∀ v, s.inCount = some v → s.readReg (.input .inCount) = .ok (.count v)
  inLo : ∀ v, s.inLo = some v → s.readReg (.input .inLo) = .ok (.byte v)
  inHi : ∀ v, s.inHi = some v → s.readReg (.input .inHi) = .ok (.nibble v)
  inCode : ∀ v, s.inCode = some v → s.readReg (.input .inCode) = .ok (.nibble v)
  outBuf : ∀ v, s.outBuf = some v → s.readReg (.output .outBuf) = .ok (.buffer v)
  outRec : ∀ v, s.outRec = some v → s.readReg (.output .outRec) = .ok (.record v)
  outCount : ∀ v, s.outCount = some v → s.readReg (.output .outCount) = .ok (.count v)
  outLit : ∀ v, s.outLit = some v → s.readReg (.output .outLit) = .ok (.literal v)
  outLo : ∀ v, s.outLo = some v → s.readReg (.output .outLo) = .ok (.byte v)
  outHi : ∀ v, s.outHi = some v → s.readReg (.output .outHi) = .ok (.nibble v)
  outCode : ∀ v, s.outCode = some v → s.readReg (.output .outCode) = .ok (.nibble v)

/-! ### What a command changes and how it ends -/

/-- No input register differs (R24). -/
structure SameInputs (s t : State) : Prop where
  inRec : t.inRec = s.inRec
  inBuf : t.inBuf = s.inBuf
  inLit : t.inLit = s.inLit
  inCount : t.inCount = s.inCount
  inLo : t.inLo = s.inLo
  inHi : t.inHi = s.inHi
  inCode : t.inCode = s.inCode

/-- No output register differs. -/
structure SameOutputs (s t : State) : Prop where
  outBuf : t.outBuf = s.outBuf
  outRec : t.outRec = s.outRec
  outCount : t.outCount = s.outCount
  outLit : t.outLit = s.outLit
  outLo : t.outLo = s.outLo
  outHi : t.outHi = s.outHi
  outCode : t.outCode = s.outCode

/-- What no command writes: CMD (R21), the inputs (R24), the host's later actions. -/
structure CommandFrame (s t : State) : Prop extends SameInputs s t where
  cmd : t.cmd = s.cmd
  pending : t.pending = s.pending

/-- The end of a command that succeeds (R99). -/
structure EndsOk (t : State) : Prop where
  status : t.status = 0x0001#16
  errDetail : t.errDetail = .noDetail

/-- Every output register holds `none`. -/
def OutputsNone (t : State) : Prop := ∀ o, t.output o = none

/-- The end of a command that raises the error (R205): STATUS is `0x0002 | kind << 4 | field << 8`, written here as a
sum; ERR_DETAIL is the detail; no output holds a value. -/
structure EndsInError (t : State) (k : ErrKind) (f : FieldId) (d : Detail) : Prop where
  status : t.status.toNat = 2 + 16 * k.code.toNat + 256 * f.code.toNat
  errDetail : t.errDetail = d
  outputs : OutputsNone t

/-- Every register but WB at its value after reset (R29). -/
structure AtReset (t : State) : Prop where
  cmd : t.cmd = 0x00#8
  status : t.status = 0x0000#16
  errDetail : t.errDetail = .noDetail
  inputs : ∀ r, t.input r = none
  outputs : OutputsNone t

/-- The outputs named hold values and every other output holds `none` (R25). -/
def OutputsExactly (os : List OutReg) (t : State) : Prop := ∀ o, (t.output o).isSome ↔ o ∈ os

/-- The error kinds a command can raise, the last column of R201. -/
def mayRaise : Instr → List ErrKind
  | .encode => [.mapperTooLarge, .submapperTooLarge, .invalidRomSize, .invalidRamSize, .invalidLiteral, .overflow]
  | .decode => [.badSignature, .badFormatMarker, .invalidVariantCode, .tooLarge]
  | .parseSize => [.invalidLiteral, .overflow]
  | .encRomSizePrg => [.invalidRomSize]
  | .encRomSizeChr => [.invalidRomSize]
  | .decRomSizePrg => [.tooLarge]
  | .decRomSizeChr => [.tooLarge]
  | .encRamSize => [.invalidRamSize]
  | .decRamSize => []

/-- The two ROM encode commands with the bytes of one linear unit, `1024 * unit` (R104, R105). -/
def romEncoders : List (Instr × Nat) :=
  [(.encRomSizePrg, 1024 * Config.prgUnit), (.encRomSizeChr, 1024 * Config.chrUnit)]

/-- The two ROM decode commands with the bytes of one linear unit (R107, R108). -/
def romDecoders : List (Instr × Nat) :=
  [(.decRomSizePrg, 1024 * Config.prgUnit), (.decRomSizeChr, 1024 * Config.chrUnit)]

/-- The suffixes of a literal with their multipliers (R73). -/
def suffixes : List (Literal × Nat) := [([], 1), ([0x4B#8], 1024), ([0x4D#8], 1048576)]

/-- The decimal value of a digit string as R100 writes it: the sum over i of `(d[i] - 0x30) * 10^(len(d) - 1 - i)`. -/
def digitSum (d : Literal) : Nat := ∑ i : Fin d.length, (d[i].toNat - 0x30) * 10 ^ (d.length - 1 - i.val)

/-- The error a computation ends in, if it does. -/
def errOf {α : Type} (x : Except Err α) : Option Err :=
  match x with
  | .ok _ => none
  | .error e => some e

/-- The checks of ENCODE in their order (R140, R208), each with the error it finds. -/
def encodeChecks (r : Record) : List (Option Err) :=
  [errOf (romField r.prgRom Config.prgUnit .prgRom),
   errOf (romField r.chrRom Config.chrUnit .chrRom),
   if 0xFFF < r.mapper.toNat then some ⟨.mapperTooLarge, .mapper, .num r.mapper⟩ else none,
   if 0xF < (r.submapper.getD 0).toNat then some ⟨.submapperTooLarge, .submapper, .num (r.submapper.getD 0)⟩ else none,
   errOf (ramField r.prgRam .prgRam),
   errOf (ramField r.prgNvram .prgNvram),
   errOf (ramField r.chrRam .chrRam),
   errOf (ramField r.chrNvram .chrNvram)]

/-- Bytes 0 to 3 are the signature (R161). -/
def SignatureOk (b : Buffer) : Prop :=
  b[0] = Config.signature[0] ∧ b[1] = Config.signature[1] ∧ b[2] = Config.signature[2] ∧ b[3] = Config.signature[3]

/-- The 4-bit code of the console a buffer names: the 2-bit code of byte 7, or the nibble of byte 13 under the sentinel 3
(R167). -/
def consoleNumber (b : Buffer) : Nat :=
  if b[7].toNat / 4 % 4 = 3 then b[13].toNat % 16 else b[7].toNat / 4 % 4

/-- The first failing check of DECODE in its order (R160, R208) and the detail it reports (R203); `none` when every check
passes. -/
def decodeVerdict (b : Buffer) : Option Err :=
  if ¬ (b[0] = Config.signature[0] ∧ b[1] = Config.signature[1] ∧ b[2] = Config.signature[2] ∧ b[3] = Config.signature[3]) then
    some ⟨.badSignature, .signature, .num (BitVec.ofNat 64 (b[0].toNat + 256 * b[1].toNat + 65536 * b[2].toNat + 16777216 * b[3].toNat))⟩
  else if b[7].toNat % 4 ≠ 2 then
    some ⟨.badFormatMarker, .formatMarker, .num (BitVec.ofNat 64 (b[7].toNat % 4))⟩
  else if b[9].toNat % 16 = 15 ∧ Config.expDecMax < b[4].toNat / 4 then
    some ⟨.tooLarge, .prgRom, .num (BitVec.ofNat 64 (b[4].toNat / 4))⟩
  else if b[9].toNat / 16 = 15 ∧ Config.expDecMax < b[5].toNat / 4 then
    some ⟨.tooLarge, .chrRom, .num (BitVec.ofNat 64 (b[5].toNat / 4))⟩
  else if consoleNumber b = 1 ∧ 6 < b[13].toNat / 16 then
    some ⟨.invalidVariantCode, .vsHardware, .num (BitVec.ofNat 64 (b[13].toNat / 16))⟩
  else none

/-! ### The layout of a header -/

/-- Buffer b holds the header of record r, byte by byte as numbers (R54 to R64, R141 to R151). The ROM fields are given
as low byte and high nibble, the RAM fields as shift counts. -/
structure HeaderLayout (r : Record) (prgRom chrRom : Byte × Nibble) (prgRam prgNvram chrRam chrNvram : Nibble)
    (b : Buffer) : Prop where
  signature : SignatureOk b
  byte4 : b[4] = prgRom.1
  byte5 : b[5] = chrRom.1
  byte6 : b[6].toNat = 16 * (r.mapper.toNat % 16)
    + (if r.mirroring.getD .vertical = .horizontal then 1 else 0)
    + (if r.battery.getD false = true then 2 else 0)
    + (if r.trainer.getD false = true then 4 else 0)
    + (if r.mirroring.getD .vertical = .fourScreens then 8 else 0)
  byte7 : b[7].toNat = 16 * (r.mapper.toNat / 16 % 16) + 4 * min (r.console.getD .nes).code.toNat 3 + 2
  byte8 : b[8].toNat = 16 * (r.submapper.getD 0).toNat + r.mapper.toNat / 256
  byte9 : b[9].toNat = 16 * chrRom.2.toNat + prgRom.2.toNat
  byte10 : b[10].toNat = 16 * prgNvram.toNat + prgRam.toNat
  byte11 : b[11].toNat = 16 * chrNvram.toNat + chrRam.toNat
  byte12 : b[12].toNat = (r.timing.getD .rp2c02).code.toNat
  byte13 : b[13].toNat =
    if r.console.getD .nes = .vsSystem then
      16 * (r.vsHardware.getD .unisystemNormal).code.toNat + (r.vsPpu.getD .any).code.toNat
    else if (r.console.getD .nes).code.toNat ≤ 2 then 0
    else (r.console.getD .nes).code.toNat
  byte14 : b[14] = 0
  byte15 : b[15] = 0

/-- Record q holds the fields of buffer b, given by arithmetic on the bytes (R163 to R170). -/
structure FieldsOf (b : Buffer) (q : Record) : Prop where
  mapper : q.mapper.toNat = b[6].toNat / 16 + 16 * (b[7].toNat / 16) + 256 * (b[8].toNat % 16)
  submapper : ∃ v, q.submapper = some v ∧ v.toNat = b[8].toNat / 16
  mirroring : q.mirroring = some (if b[6].toNat / 8 % 2 = 1 then .fourScreens
    else if b[6].toNat % 2 = 1 then .horizontal else .vertical)
  battery : q.battery = some (decide (b[6].toNat / 2 % 2 = 1))
  trainer : q.trainer = some (decide (b[6].toNat / 4 % 2 = 1))
  console : ∃ c, q.console = some c ∧ c.code.toNat = consoleNumber b
  timing : ∃ c, q.timing = some c ∧ c.code.toNat = b[12].toNat % 4
  vsOn : consoleNumber b = 1 → ∃ p h, q.vsPpu = some p ∧ q.vsHardware = some h ∧
    p.code.toNat = b[13].toNat % 16 ∧ h.code.toNat = b[13].toNat / 16
  vsOff : consoleNumber b ≠ 1 → q.vsPpu = none ∧ q.vsHardware = none
  prgRom : ∃ n, decRom b[4] (b[9].extractLsb' 0 4) Config.prgUnit .prgRom = .ok (n, q.prgRom)
  chrRom : ∃ n, decRom b[5] (b[9].extractLsb' 4 4) Config.chrUnit .chrRom = .ok (n, q.chrRom)
  prgRam : q.prgRam = some (decRam (b[10].extractLsb' 0 4)).2
  prgNvram : q.prgNvram = some (decRam (b[10].extractLsb' 4 4)).2
  chrRam : q.chrRam = some (decRam (b[11].extractLsb' 0 4)).2
  chrNvram : q.chrNvram = some (decRam (b[11].extractLsb' 4 4)).2

/-! ### Records -/

/-- The two Vs-System fields are present exactly when the console is VsSystem (R172). -/
def VsGated (q : Record) : Prop :=
  (q.console = some .vsSystem → q.vsPpu.isSome ∧ q.vsHardware.isSome) ∧
  (q.console ≠ some .vsSystem → q.vsPpu = none ∧ q.vsHardware = none)

/-- The normal form of a decoded record (R172): every defaulted optional field is present, the Vs-System fields exactly for
the console VsSystem, every size field matches `^\d+[KM]?$`, and mapper and submapper fit their bits (R164, R165). -/
structure NormalForm (q : Record) : Prop where
  mapper : q.mapper.toNat ≤ 0xFFF
  submapper : ∃ v, q.submapper = some v ∧ v.toNat ≤ 0xF
  mirroring : q.mirroring.isSome
  battery : q.battery.isSome
  trainer : q.trainer.isSome
  console : q.console.isSome
  timing : q.timing.isSome
  vs : VsGated q
  prgRom : wfLiteral q.prgRom
  chrRom : wfLiteral q.chrRom
  prgRam : ∃ v, q.prgRam = some v ∧ wfLiteral v
  prgNvram : ∃ v, q.prgNvram = some v ∧ wfLiteral v
  chrRam : ∃ v, q.chrRam = some v ∧ wfLiteral v
  chrNvram : ∃ v, q.chrNvram = some v ∧ wfLiteral v

/-- The Vs-System condition of a valid record (R180). -/
def VsValid (r : Record) : Prop :=
  r.console.getD .nes = .vsSystem ∨ (r.vsPpu = none ∧ r.vsHardware = none)

/-- The literal "0K" (R180). -/
def zeroLit : Literal := [0x30#8, 0x4B#8]

/-- `Norm(r)` (R180). -/
def norm (r : Record) : Record where
  mapper := r.mapper
  submapper := some (r.submapper.getD 0)
  mirroring := some (r.mirroring.getD .vertical)
  battery := some (r.battery.getD false)
  trainer := some (r.trainer.getD false)
  console := some (r.console.getD .nes)
  timing := some (r.timing.getD .rp2c02)
  vsPpu := if r.console.getD .nes = .vsSystem then some (r.vsPpu.getD .any) else none
  vsHardware := if r.console.getD .nes = .vsSystem then some (r.vsHardware.getD .unisystemNormal) else none
  prgRom := r.prgRom
  prgRam := some (r.prgRam.getD zeroLit)
  prgNvram := some (r.prgNvram.getD zeroLit)
  chrRom := r.chrRom
  chrRam := some (r.chrRam.getD zeroLit)
  chrNvram := some (r.chrNvram.getD zeroLit)

/-- Two literals have the same ParseLit value (R180). -/
def SameSize (a b : Literal) : Prop := ∃ n, parseLit a .none = .ok n ∧ parseLit b .none = .ok n

/-- Two optional literals are both absent, or both present with the same ParseLit value (R180). -/
def SameSizeOpt (a b : Option Literal) : Prop :=
  match a, b with
  | none, none => True
  | some x, some y => SameSize x y
  | _, _ => False

/-- Two records are equal up to sizes (R180). -/
structure EqUpToSizes (q r : Record) : Prop where
  mapper : q.mapper = r.mapper
  submapper : q.submapper = r.submapper
  mirroring : q.mirroring = r.mirroring
  battery : q.battery = r.battery
  trainer : q.trainer = r.trainer
  console : q.console = r.console
  timing : q.timing = r.timing
  vsPpu : q.vsPpu = r.vsPpu
  vsHardware : q.vsHardware = r.vsHardware
  prgRom : SameSize q.prgRom r.prgRom
  prgRam : SameSizeOpt q.prgRam r.prgRam
  prgNvram : SameSizeOpt q.prgNvram r.prgNvram
  chrRom : SameSize q.chrRom r.chrRom
  chrRam : SameSizeOpt q.chrRam r.chrRam
  chrNvram : SameSizeOpt q.chrNvram r.chrNvram

/-! ### The invariant of the machine -/

/-- Byte 13 by the 2-bit console code of byte 7, as ENCODE writes it (R64, R75): 0 for `Nes` and `Playchoice10`, a
hardware code in bits 7:4 for `VsSystem`, and for the sentinel an extension nibble of 3 or more below a zero nibble. -/
def Byte13Shape (consoleCode byte13 : Nat) : Prop :=
  if consoleCode = 1 then byte13 / 16 ≤ 6
  else if consoleCode = 3 then byte13 / 16 = 0 ∧ 3 ≤ byte13 % 16
  else byte13 = 0

/-- A buffer ENCODE can write: the signature (R54), the format marker (R59), zeros in every bit without a field, that is,
byte 12 bits 7:2, the unused nibbles of byte 13, and bytes 14 and 15 (R63, R64, R75). -/
structure EncodedShape (b : Buffer) : Prop where
  signature : SignatureOk b
  marker : (b[7]).toNat % 4 = 2
  timing : (b[12]).toNat < 4
  byte13 : Byte13Shape ((b[7]).toNat / 4 % 4) (b[13]).toNat
  byte14 : b[14] = 0
  byte15 : b[15] = 0

/-- What STATUS and ERR_DETAIL can hold (R22, R23): IDLE or OK with nothing else set and no detail, or ERROR with one of
the eleven kinds and one of the twelve fields, and a detail. -/
inductive StatusLegal : BitVec 16 → Detail → Prop
  | idle : StatusLegal 0x0000#16 .noDetail
  | ok : StatusLegal 0x0001#16 .noDetail
  | error (k : ErrKind) (f : FieldId) (d : Detail) (h : d ≠ .noDetail) : StatusLegal (statusError k f) d

/-- The invariant of the machine. It holds at reset and every step keeps it. -/
structure Inv (s : State) : Prop where
  /-- STATUS and ERR_DETAIL are legal (R22, R23) -/
  status : StatusLegal s.status s.errDetail
  /-- an output holds a value only after a command that succeeded (R25) -/
  outputs : s.status ≠ 0x0001#16 → OutputsNone s
  /-- IDLE means no command since reset (R22), so CMD is as reset left it (R21) -/
  idle : s.status = 0x0000#16 → s.cmd = 0x00#8
  /-- a rendered literal stands beside the count it denotes (R15, R123) -/
  literal : ∀ l, s.outLit = some l → wfLiteral l ∧ ∃ n, s.outCount = some n ∧ parseLit l .none = .ok n.toNat
  /-- a decoded record is in normal form (R172) -/
  record : ∀ q, s.outRec = some q → NormalForm q
  /-- an encoded buffer has the fixed parts of the layout, and WB still holds it (R26, R54, R59) -/
  buffer : ∀ b, s.outBuf = some b → EncodedShape b ∧ s.wb = b

end Sys2Proof.Machine
end

