-- ==== Sys2Proof/Certificates/Slice0/Obligations.lean ====
section
/-!
DEFINITION. The statements about the block, in the order of the spec's files.
-/

open Sys2Proof Sys2Proof.Machine

/-! ### Command words and steps (10_state.md, 30_encoding.md Part A) -/

/-- R51's nine codes, each word written out in bits. -/
def Obligations.CommandWordsDecode : Prop :=
  decode 0b00000001#8 = .ok .encode ∧ decode 0b00000010#8 = .ok .decode ∧ decode 0b00010000#8 = .ok .parseSize ∧
  decode 0b00100000#8 = .ok .encRomSizePrg ∧ decode 0b00100001#8 = .ok .encRomSizeChr ∧
  decode 0b00100010#8 = .ok .decRomSizePrg ∧ decode 0b00100011#8 = .ok .decRomSizeChr ∧
  decode 0b00110000#8 = .ok .encRamSize ∧ decode 0b00110001#8 = .ok .decRamSize

/-- The decoder and the encoder agree, and what the decoder accepts is what the field conditions of R50 allow. -/
def Obligations.DecoderAndEncoderAgree : Prop :=
  (∀ i : Instr, decode (encode i) = .ok i) ∧ (∀ c i, decode c = .ok i → encode i = c) ∧
  (∀ c, (∃ i, decode c = .ok i) ↔ wfWord c = true)

/-- R52 and R213: a write of a value that is no command clears every output and raises IllegalCommand(NONE, Num(CMD)),
whatever the inputs hold. -/
def Obligations.IllegalCommandWordsRaiseIllegalCommand : Prop :=
  ∀ (s : State) (c : Byte) (rest : List HostAction), s.pending = .setCmd c :: rest →
    (c.toNat = 0 ∨ (0x03 ≤ c.toNat ∧ c.toNat ≤ 0x0F) ∨ (0x11 ≤ c.toNat ∧ c.toNat ≤ 0x1F) ∨
      (0x24 ≤ c.toNat ∧ c.toNat ≤ 0x2F) ∨ 0x32 ≤ c.toNat) →
    ∃ t, step s = .next t ∧ EndsInError t .illegalCommand .none (.num (c.zeroExtend 64)) ∧ t.status = 0x00B2#16 ∧
      t.cmd = c ∧ t.pending = rest ∧ SameInputs s t

/-- R21 and R236: the step of a CMD write is CMD taking the value and the decoded command's own `exec`, nothing else. -/
def Obligations.StepRunsTheDecodedCommand : Prop :=
  ∀ (s : State) (c : Byte) (rest : List HostAction) (i : Instr), s.pending = .setCmd c :: rest → decode c = .ok i →
    step s = exec i { s with cmd := c, pending := rest }

/-- The host's interface: a table word placed by `withFetchWord` is what the very next step runs, in any state. -/
def Obligations.PlacedWordIsTheNextCommand : Prop :=
  ∀ (s : State) (w : Nat) (i : Instr), decodeTableWord 8 w = some i →
    step (s.withFetchWord 8 w) = exec i { s with cmd := encode i }

/-- R240: the actions of the host other than CMD writes and resets. A write to an input register sets that register and nothing else; a write to a
read-only register and a read of a register that holds a value change nothing, and a read answers the value of the
register read; with no action pending nothing changes (the idle step is the model's, log entry 2). -/
def Obligations.OtherHostActionsAreExact : Prop :=
  (∀ (s : State) (w : InputWrite) (rest : List HostAction), s.pending = .setInput w :: rest →
    ∃ t, step s = .next t ∧ t.input w.reg = some w.value ∧ (∀ r, r ≠ w.reg → t.input r = s.input r) ∧
      t.pending = rest ∧ SameOutputs s t ∧ t.cmd = s.cmd ∧ t.status = s.status ∧ t.errDetail = s.errDetail ∧
      t.wb = s.wb ∧ t.freeIdx = s.freeIdx) ∧
  (∀ (s : State) (r : ReadOnlyReg) (rest : List HostAction), s.pending = .setReadOnly r :: rest →
    step s = .next { s with pending := rest }) ∧
  (∀ (s : State) (r : HostReg) (v : RegValue) (rest : List HostAction), s.pending = .read r :: rest →
    s.readReg r = .ok v → step s = .next { s with pending := rest }) ∧
  (∀ s : State, HostReads s) ∧
  (∀ s : State, s.pending = [] → step s = .next s)

/-- R29, R230: every register but WB (which R29 leaves unspecified) has its reset value in `State.reset`; a host reset
always completes, leaves the same values, and leaves the host's later actions to come. -/
def Obligations.ResetLeavesTheSpecifiedValues : Prop :=
  AtReset State.reset ∧
  ∀ (s : State) (rest : List HostAction), s.pending = .reset :: rest →
    ∃ t, step s = .next t ∧ AtReset t ∧ t.pending = rest

/-- R24 and R29: an input register changes only by a host write to it or by a reset, across any number of commands. -/
def Obligations.InputsChangeOnlyByHostWriteOrReset : Prop :=
  ∀ (s t : State) (r : InReg), step s = .next t → t.input r ≠ s.input r →
    ∃ rest, s.pending = .reset :: rest ∨ ∃ w, s.pending = .setInput w :: rest ∧ w.reg = r ∧ t.input r = some w.value

/-- R25: a command, legal or not, starts by setting every output to `none`; one that succeeds then writes exactly the
outputs R51 lists for it, one that fails writes none; and no action of the host but a reset touches an output. With it
the frame of every command: CMD holds the value written, the inputs and the host's later actions are unchanged, and a
command that succeeds, unless it is ENCODE, leaves WB and the model's counter of free values unchanged. That WB is held is
the model's choice (log entry 6, from R26 and R220; I16 and R239 leave WB between commands open). -/
def Obligations.CommandsWriteExactlyTheirOutputs : Prop :=
  (∀ (s t : State) (c : Byte) (rest : List HostAction), s.pending = .setCmd c :: rest → step s = .next t →
    t.cmd = c ∧ t.pending = rest ∧ SameInputs s t ∧
    ((EndsOk t ∧ ∃ i, decode c = .ok i ∧ OutputsExactly (writes i) t ∧ (i ≠ .encode → t.wb = s.wb ∧ t.freeIdx = s.freeIdx)) ∨
      ∃ k f d, EndsInError t k f d)) ∧
  (∀ (s t : State) (a : HostAction) (rest : List HostAction), s.pending = a :: rest → (∀ c, a ≠ .setCmd c) → a ≠ .reset →
    step s = .next t → SameOutputs s t)

/-- R99 and the frame of every command: when `exec` answers a next state, CMD, the inputs and the host's later actions are
unchanged, and either the command succeeded (STATUS 0x0001, NoDetail, exactly the outputs R51 lists) or it raised one of
the kinds R201 lists for it, with a detail and no output. On success the model's counter of free values is unchanged, and
WB is unless the command is ENCODE: the model's choice (log entry 6; I16 and R239 leave WB between commands open). -/
def Obligations.CommandsEndOkOrInOneOfTheirErrors : Prop :=
  ∀ (i : Instr) (s t : State), exec i s = .next t →
    CommandFrame s t ∧
    ((EndsOk t ∧ OutputsExactly (writes i) t ∧ (i ≠ .encode → t.wb = s.wb) ∧ t.freeIdx = s.freeIdx) ∨
      (∃ k ∈ mayRaise i, ∃ f d, d ≠ .noDetail ∧ EndsInError t k f d))

/-- R27, R98, R237: a command that finds a register it reads unset meets the model fault UnsetInput of such a register;
otherwise it terminates with a next state. No command is ever refused. That the fault leaves no next state is the model's
reading (log entry 3). -/
def Obligations.UnsetInputIsTheOnlyFault : Prop :=
  ∀ (i : Instr) (s : State),
    if ∃ r ∈ reads i, s.input r = none then ∃ r ∈ reads i, s.input r = none ∧ exec i s = .fault (.unsetInput r)
    else ∃ t, exec i s = .next t

/-- R232, R234: a step stops exactly when the host's next action breaks a duty; it is never refused. That a broken duty ends
the run is the model's reading (log entries 3 and 4). -/
def Obligations.StepsStopExactlyOnBrokenDuties : Prop :=
  ∀ s : State, (hostDutiful s = true → ∃ t, step s = .next t) ∧
    (hostDutiful s = false → ∃ f, step s = .fault f)

/-- R12, R24, R47: a command's result depends on nothing but the inputs it names: two states that agree on those end with
the same STATUS, ERR_DETAIL and outputs. -/
def Obligations.ResultsDependOnlyOnNamedInputs : Prop :=
  ∀ (i : Instr) (s s' t : State), (∀ r ∈ reads i, s'.input r = s.input r) → exec i s = .next t →
    ∃ t', exec i s' = .next t' ∧ t'.status = t.status ∧ t'.errDetail = t.errDetail ∧ SameOutputs t t'

/-! ### Byte order (20_memory.md) -/

/-- R8, R43: MemRead is little-endian, the byte at offset `addr + i` weighing `256^i`, and undoes MemWrite; bytes outside
the written ones read as before. -/
def Obligations.MemReadUndoesMemWrite : Prop :=
  ∀ (b : Buffer) (addr n v : Nat) (h : addr + n ≤ 16),
    memRead b addr n h = ∑ i : Fin n, b[addr + i.val].toNat * 256 ^ i.val ∧
    memRead (memWrite b addr n v h) addr n h = v % 256 ^ n ∧
    ∀ i (hi : i < 16), (i < addr ∨ addr + n ≤ i) → (memWrite b addr n v h)[i] = b[i]

/-! ### Codes (30_encoding.md Part B) -/

/-- R65 to R68, R16, R201, R202: the codes of the members, listed in the order of the spec's tables, so that each list of
codes counts up from its first. Members and codes agree both ways, and the hardware codes 7 to 15 name no member. -/
def Obligations.EnumerationCodesAgree : Prop :=
  [Console.nes, .vsSystem, .playchoice10, .nesWithDecimal, .nesWithEPSM, .vt01, .vt02, .vt03, .vt09, .vt32, .vt369, .um6539,
    .famicomNetworkSystem, .reservedD, .reservedE, .reservedF].map (·.code.toNat) = List.range 16 ∧
  [Timing.rp2c02, .rp2c07, .multiple, .ua6538].map (·.code.toNat) = List.range 4 ∧
  [VsPpu.any, .reserved1, .rp2c04_0001, .rp2c04_0002, .rp2c04_0003, .rp2c04_0004, .reserved6, .reserved7, .rc2c05_01,
    .rc2c05_02, .rc2c05_03, .rc2c05_04, .reservedC, .reservedD, .reservedE, .reservedF].map (·.code.toNat) = List.range 16 ∧
  [VsHardware.unisystemNormal, .unisystemRbiBaseball, .unisystemTkoBoxing, .unisystemSuperXevious, .unisystemIceClimberJapan,
    .dualSystemNormal, .dualSystemRaidOnBungelingBay].map (·.code.toNat) = List.range 7 ∧
  [Mirroring.vertical, .horizontal, .fourScreens].map (·.code.toNat) = List.range 3 ∧
  [ErrKind.mapperTooLarge, .submapperTooLarge, .invalidRomSize, .invalidRamSize, .invalidLiteral, .overflow, .badSignature,
    .badFormatMarker, .invalidVariantCode, .tooLarge, .illegalCommand].map (·.code.toNat) = List.range' 1 11 ∧
  [FieldId.none, .mapper, .submapper, .prgRom, .chrRom, .prgRam, .prgNvram, .chrRam, .chrNvram, .signature, .formatMarker,
    .vsHardware].map (·.code.toNat) = List.range 12 ∧
  (∀ c : Console, Console.ofCode c.code = c) ∧ (∀ k, (Console.ofCode k).code = k) ∧
  (∀ c : Timing, Timing.ofCode c.code = c) ∧ (∀ k, (Timing.ofCode k).code = k) ∧
  (∀ c : VsPpu, VsPpu.ofCode c.code = c) ∧ (∀ k, (VsPpu.ofCode k).code = k) ∧
  (∀ c : VsHardware, VsHardware.ofCode c.code = some c) ∧ (∀ k, VsHardware.ofCode k = none ↔ 7 ≤ k.toNat)

/-! ### Size Codec (40_size_codec.md) -/

/-- R100, R101: PARSE_SIZE. A literal that is digits and one of the three suffixes has the value of R100's sum; digits beyond
`2^BYTECOUNT_W - 1` raise InvalidLiteral, a product beyond it raises Overflow, and otherwise OUT_COUNT is the product.
Every other literal raises InvalidLiteral. The detail is the whole literal. -/
def Obligations.ParseSizeResult : Prop :=
  ∀ (s : State) (lit : Literal), s.inLit = some lit →
    ∃ t, exec .parseSize s = .next t ∧ CommandFrame s t ∧
      ((∃ d suf m, lit = d ++ suf ∧ d ≠ [] ∧ (∀ c ∈ d, 0x30 ≤ c.toNat ∧ c.toNat ≤ 0x39) ∧ (suf, m) ∈ suffixes ∧
          if 2 ^ Config.bytecountW - 1 < digitSum d then EndsInError t .invalidLiteral .none (.text lit)
          else if 2 ^ Config.bytecountW - 1 < digitSum d * m then EndsInError t .overflow .none (.text lit)
          else EndsOk t ∧ OutputsExactly [.outCount] t ∧ ∃ n, t.outCount = some n ∧ n.toNat = digitSum d * m) ∨
        ((∀ d suf m, lit = d ++ suf → d ≠ [] → (∀ c ∈ d, 0x30 ≤ c.toNat ∧ c.toNat ≤ 0x39) → (suf, m) ∉ suffixes) ∧
          EndsInError t .invalidLiteral .none (.text lit)))

/-- R102, R104, R105: the two ROM encode commands. A whole number of units at most LINEAR_MAX is written in linear form; any
other count `2^e * (2*m + 1)` with e at most EXP_ENC_MAX and m at most 3 in exponent form; a count with neither form
raises InvalidRomSize with the count. -/
def Obligations.EncRomSizeResult : Prop :=
  ∀ (s : State) (i : Instr) (l : Nat) (n : ByteCount), (i, l) ∈ romEncoders → s.inCount = some n →
    ∃ t, exec i s = .next t ∧ CommandFrame s t ∧
      if n.toNat % l = 0 ∧ n.toNat / l ≤ Config.linearMax then
        EndsOk t ∧ OutputsExactly [.outLo, .outHi] t ∧ ∃ lo hi, t.outLo = some lo ∧ t.outHi = some hi ∧
          lo.toNat = n.toNat / l % 256 ∧ hi.toNat = n.toNat / l / 256
      else
        (∃ e m, e ≤ Config.expEncMax ∧ m ≤ 3 ∧ n.toNat = 2 ^ e * (2 * m + 1) ∧
          EndsOk t ∧ OutputsExactly [.outLo, .outHi] t ∧ ∃ lo, t.outLo = some lo ∧ t.outHi = some 0xF#4 ∧ lo.toNat = 4 * e + m) ∨
        ((∀ e m, e ≤ Config.expEncMax → m ≤ 3 → n.toNat ≠ 2 ^ e * (2 * m + 1)) ∧
          EndsInError t .invalidRomSize .none (.num n))

/-- R106 to R108: the two ROM decode commands. The high nibble 0xF selects the exponent form, whatever the unit, and an
exponent above EXP_DEC_MAX raises TooLarge; any other high nibble is the top of a unit count. The count comes with its
rendering. -/
def Obligations.DecRomSizeResult : Prop :=
  ∀ (s : State) (i : Instr) (l : Nat) (lo : Byte) (hi : Nibble), (i, l) ∈ romDecoders → s.inLo = some lo → s.inHi = some hi →
    ∃ t, exec i s = .next t ∧ CommandFrame s t ∧
      if hi = 0xF#4 ∧ Config.expDecMax < lo.toNat / 4 then
        EndsInError t .tooLarge .none (.num (BitVec.ofNat 64 (lo.toNat / 4)))
      else
        EndsOk t ∧ OutputsExactly [.outCount, .outLit] t ∧ ∃ n, t.outCount = some n ∧ t.outLit = some (renderRom n.toNat) ∧
          n.toNat = if hi = 0xF#4 then 2 ^ (lo.toNat / 4) * (2 * (lo.toNat % 4) + 1) else (256 * hi.toNat + lo.toNat) * l

/-- R72, R109, R110: 0 is count 0, `64 << c` is count c for c in 1 to 15, and nothing else has a count. -/
def Obligations.EncRamSizeIsTheShiftForm : Prop :=
  ∀ (s : State) (n : ByteCount), s.inCount = some n →
    ∃ t, exec .encRamSize s = .next t ∧ CommandFrame s t ∧
      ((n.toNat = 0 ∧ EndsOk t ∧ OutputsExactly [.outCode] t ∧ t.outCode = some 0) ∨
        (∃ c, 1 ≤ c ∧ c ≤ 15 ∧ n.toNat = 64 * 2 ^ c ∧ EndsOk t ∧ OutputsExactly [.outCode] t ∧ t.outCode = some (BitVec.ofNat 4 c)) ∨
        (n.toNat ≠ 0 ∧ (∀ c, 1 ≤ c → c ≤ 15 → n.toNat ≠ 64 * 2 ^ c) ∧ EndsInError t .invalidRamSize .none (.num n)))

/-- R72, R111, R112: DEC_RAM_SIZE never fails; its count is 0 for code 0 and `64 << c` otherwise. -/
def Obligations.DecRamSizeNeverFails : Prop :=
  ∀ (s : State) (c : Nibble), s.inCode = some c →
    ∃ t, exec .decRamSize s = .next t ∧ CommandFrame s t ∧ EndsOk t ∧ OutputsExactly [.outCount, .outLit] t ∧
      ∃ n, t.outCount = some n ∧ n.toNat = (if c.toNat = 0 then 0 else 64 * 2 ^ c.toNat) ∧
        t.outLit = some (renderRam n.toNat)

/-- Where the commands of families 1 to 3 complete with their own effect, by conditions on the operands alone: a literal of
digits and a suffix whose value fits a byte count; a ROM count with a linear or an exponent form; a ROM pair whose exponent,
if it has one, is at most EXP_DEC_MAX; a RAM count of the shift form. (DEC_RAM_SIZE completes always.) -/
def Obligations.SizeCommandsSucceedOnTheirDomains : Prop :=
  (∀ (s : State) (d suf : Literal) (m : Nat), d ≠ [] → (∀ c ∈ d, 0x30 ≤ c.toNat ∧ c.toNat ≤ 0x39) → (suf, m) ∈ suffixes →
    digitSum d * m ≤ 2 ^ Config.bytecountW - 1 → s.inLit = some (d ++ suf) →
    ∃ t, exec .parseSize s = .next t ∧ CommandFrame s t ∧ EndsOk t ∧ OutputsExactly [.outCount] t ∧
      t.outCount = some (BitVec.ofNat Config.bytecountW (digitSum d * m))) ∧
  (∀ (s : State) (i : Instr) (l : Nat) (n : ByteCount), (i, l) ∈ romEncoders → s.inCount = some n →
    (n.toNat % l = 0 ∧ n.toNat / l ≤ Config.linearMax ∨
      ∃ e m, e ≤ Config.expEncMax ∧ m ≤ 3 ∧ n.toNat = 2 ^ e * (2 * m + 1)) →
    ∃ t, exec i s = .next t ∧ CommandFrame s t ∧ EndsOk t ∧ OutputsExactly [.outLo, .outHi] t) ∧
  (∀ (s : State) (i : Instr) (l : Nat) (lo : Byte) (hi : Nibble), (i, l) ∈ romDecoders → s.inLo = some lo → s.inHi = some hi →
    (hi = 0xF#4 → lo.toNat / 4 ≤ Config.expDecMax) →
    ∃ t, exec i s = .next t ∧ CommandFrame s t ∧ EndsOk t ∧ OutputsExactly [.outCount, .outLit] t) ∧
  (∀ (s : State) (n : ByteCount) (c : Nat), s.inCount = some n → c ≤ Config.ramCountMax →
    n.toNat = (if c = 0 then 0 else 64 * 2 ^ c) →
    ∃ t, exec .encRamSize s = .next t ∧ CommandFrame s t ∧ EndsOk t ∧ OutputsExactly [.outCode] t ∧
      t.outCode = some (BitVec.ofNat 4 c))

/-- R8: DecStr is the decimal digits, most significant first, with no leading zero, and "0" for 0. -/
def Obligations.DecStrIsDecimal : Prop :=
  ∀ n : Nat, decStr n = if n = 0 then [0x30#8] else ((Nat.digits 10 n).map fun d => BitVec.ofNat 8 (0x30 + d)).reverse

/-- R120, R121: RenderRom uses the largest of M, K and bytes that divides a count above 0, and writes "0K" for 0; RenderRam
uses K for a multiple of 1024 and bytes otherwise, never M. -/
def Obligations.RenderingsUseTheirUnits : Prop :=
  (renderRom 0 = [0x30#8, 0x4B#8]) ∧
  (∀ n : Nat, 0 < n → ∃ m suf, (suf, m) ∈ suffixes ∧ n % m = 0 ∧ renderRom n = decStr (n / m) ++ suf ∧
    ∀ p ∈ suffixes, n % p.2 = 0 → p.2 ≤ m) ∧
  (∀ n : Nat, ∃ m suf, (suf, m) ∈ suffixes ∧ m ≤ 1024 ∧ n % m = 0 ∧ renderRam n = decStr (n / m) ++ suf ∧
    (n % 1024 = 0 → m = 1024))

/-- R15, R123: what a decode command writes to OUT_LIT is well formed and denotes OUT_COUNT. -/
def Obligations.DecodedLiteralDenotesTheCount : Prop :=
  ∀ (i : Instr) (s t : State) (l : Literal), exec i s = .next t → t.outLit = some l →
    wfLiteral l = true ∧ ∃ n, t.outCount = some n ∧ parseLit l .none = .ok n.toNat

/-- R124: DEC_ROM_SIZE undoes ENC_ROM_SIZE of the same unit. -/
def Obligations.DecRomSizeUndoesEncRomSize : Prop :=
  ∀ (s t : State) (i j : Instr) (l : Nat), (i, l) ∈ romEncoders → (j, l) ∈ romDecoders →
    exec i s = .next t → t.status = 0x0001#16 →
    ∃ u, exec j { t with inLo := t.outLo, inHi := t.outHi } = .next u ∧ EndsOk u ∧ u.outCount = s.inCount

/-- R124: which pairs are canonical, that is, come back when their count is encoded again. -/
def Obligations.CanonicalRomPairs : Prop :=
  ∀ (lo : Byte) (hi : Nibble) (unit n : Nat) (lit : Literal) (f : FieldId), unit = Config.prgUnit ∨ unit = Config.chrUnit →
    decRom lo hi unit f = .ok (n, lit) →
    (encRom n unit f = .ok (lo, hi) ↔
      hi ≠ 0xF#4 ∨ (hi = 0xF#4 ∧ lo.toNat / 4 ≤ Config.expEncMax ∧ ∀ u, u ≤ Config.linearMax → n ≠ u * (1024 * unit)))

/-- R125: DEC_RAM_SIZE undoes ENC_RAM_SIZE, and ENC_RAM_SIZE undoes DEC_RAM_SIZE on every code. -/
def Obligations.RamSizeCommandsInvertEachOther : Prop :=
  (∀ s t : State, exec .encRamSize s = .next t → t.status = 0x0001#16 →
    ∃ u, exec .decRamSize { t with inCode := t.outCode } = .next u ∧ EndsOk u ∧ u.outCount = s.inCount) ∧
  (∀ s t : State, exec .decRamSize s = .next t →
    ∃ u, exec .encRamSize { t with inCount := t.outCount } = .next u ∧ EndsOk u ∧ u.outCode = s.inCode)

/-! ### Header Codec (41_header_codec.md) -/

/-- R140 to R151, the success of ENCODE: when the eight fields with a check pass it, OUT_BUF is the header laid out byte by
byte, and WB holds the same bytes. -/
def Obligations.EncodeWritesTheLayout : Prop :=
  ∀ (s : State) (r : Record) (p c : Byte × Nibble) (a b d e : Nibble), s.inRec = some r →
    romField r.prgRom Config.prgUnit .prgRom = .ok p → romField r.chrRom Config.chrUnit .chrRom = .ok c →
    r.mapper.toNat ≤ 0xFFF → (r.submapper.getD 0).toNat ≤ 0xF →
    ramField r.prgRam .prgRam = .ok a → ramField r.prgNvram .prgNvram = .ok b →
    ramField r.chrRam .chrRam = .ok d → ramField r.chrNvram .chrNvram = .ok e →
    ∃ t buf, exec .encode s = .next t ∧ CommandFrame s t ∧ EndsOk t ∧ OutputsExactly [.outBuf] t ∧
      t.outBuf = some buf ∧ t.wb = buf ∧ HeaderLayout r p c a b d e buf

/-- R140, R206, R208: ENCODE reports the first failing check of its order, and succeeds when none fails. -/
def Obligations.EncodeReportsTheFirstFailingCheck : Prop :=
  ∀ (s : State) (r : Record), s.inRec = some r →
    ∃ t, exec .encode s = .next t ∧ CommandFrame s t ∧
      match (encodeChecks r).findSome? id with
      | some e => EndsInError t e.kind e.field e.detail
      | none => EndsOk t ∧ OutputsExactly [.outBuf] t

/-- R142, R144: with encodable ROM sizes, a mapper above 0xFFF raises MapperTooLarge(MAPPER, Num(mapper)); else a submapper
above 0xF, an absent one counting as 0, raises SubmapperTooLarge(SUBMAPPER, Num(submapper)); else neither is raised. -/
def Obligations.MapperAndSubmapperChecks : Prop :=
  ∀ (s : State) (r : Record) (p c : Byte × Nibble), s.inRec = some r →
    romField r.prgRom Config.prgUnit .prgRom = .ok p → romField r.chrRom Config.chrUnit .chrRom = .ok c →
    ∃ t, exec .encode s = .next t ∧
      if 0xFFF < r.mapper.toNat then EndsInError t .mapperTooLarge .mapper (.num r.mapper)
      else if 0xF < (r.submapper.getD 0).toNat then
        EndsInError t .submapperTooLarge .submapper (.num (r.submapper.getD 0))
      else statusKind t.status ≠ 1 ∧ statusKind t.status ≠ 2

/-- R149: with another console than VsSystem the two Vs-System fields are not read: ENCODE gives the same result
whatever they hold. -/
def Obligations.VsFieldsAreIgnoredForOtherConsoles : Prop :=
  ∀ (s : State) (r : Record) (p : Option VsPpu) (h : Option VsHardware), s.inRec = some r → r.console.getD .nes ≠ .vsSystem →
    ∃ t u, exec .encode s = .next t ∧ exec .encode { s with inRec := some { r with vsPpu := p, vsHardware := h } } = .next u ∧
      u.outBuf = t.outBuf ∧ u.status = t.status ∧ u.errDetail = t.errDetail

/-- R163 to R170, the success of DECODE: when every check passes, OUT_REC is the record whose fields are those of the
buffer, given by arithmetic on its bytes. -/
def Obligations.DecodeWritesTheFields : Prop :=
  ∀ (s : State) (b : Buffer), s.inBuf = some b → decodeVerdict b = none →
    ∃ t q, exec .decode s = .next t ∧ CommandFrame s t ∧ EndsOk t ∧ OutputsExactly [.outRec] t ∧
      t.outRec = some q ∧ FieldsOf b q

/-- R160, R161, R162, R208: DECODE reports the first failing check of its order, with the details of R203. -/
def Obligations.DecodeReportsTheFirstFailingCheck : Prop :=
  ∀ (s : State) (b : Buffer) (e : Err), s.inBuf = some b → decodeVerdict b = some e →
    ∃ t, exec .decode s = .next t ∧ CommandFrame s t ∧ EndsInError t e.kind e.field e.detail

/-- R171: the bits no rule reads decide nothing. The second buffer may differ in byte 12 bits 7:2, in bytes 14 and 15, in
byte 13 bits 3:0 when byte 7 bits 3:2 are 0b00 or 0b10, and in byte 13 bits 7:4 unless the decoded console is VsSystem. -/
def Obligations.DecodeIgnoresTheUnreadBits : Prop :=
  ∀ (s t : State) (b b' : Buffer), s.inBuf = some b → exec .decode s = .next t →
    (∀ i (h : i < 12), b'[i] = b[i]) → b'[12].toNat % 4 = b[12].toNat % 4 →
    (b[7].toNat / 4 % 4 ≠ 0 → b[7].toNat / 4 % 4 ≠ 2 → b'[13].toNat % 16 = b[13].toNat % 16) →
    (consoleNumber b = 1 → b'[13].toNat / 16 = b[13].toNat / 16) →
    ∃ t', exec .decode { s with inBuf := some b' } = .next t' ∧ t'.outRec = t.outRec ∧ t'.status = t.status ∧
      t'.errDetail = t.errDetail

/-- R173: every decoded field depends on its own bits only, the Vs-System fields on the decoded console as well. -/
def Obligations.DecodedFieldsAreIndependent : Prop :=
  ∀ (b b' : Buffer) (q q' : Record), decodeBuffer b = .ok q → decodeBuffer b' = .ok q' →
    (b'[6].toNat / 16 = b[6].toNat / 16 → b'[7].toNat / 16 = b[7].toNat / 16 → b'[8].toNat % 16 = b[8].toNat % 16 →
      q'.mapper = q.mapper) ∧
    (b'[8].toNat / 16 = b[8].toNat / 16 → q'.submapper = q.submapper) ∧
    (b'[6].toNat % 2 = b[6].toNat % 2 → b'[6].toNat / 8 % 2 = b[6].toNat / 8 % 2 → q'.mirroring = q.mirroring) ∧
    (b'[6].toNat / 2 % 2 = b[6].toNat / 2 % 2 → q'.battery = q.battery) ∧
    (b'[6].toNat / 4 % 2 = b[6].toNat / 4 % 2 → q'.trainer = q.trainer) ∧
    (consoleNumber b' = consoleNumber b → q'.console = q.console) ∧
    (b'[12].toNat % 4 = b[12].toNat % 4 → q'.timing = q.timing) ∧
    (q'.console = q.console → b'[13].toNat % 16 = b[13].toNat % 16 → q'.vsPpu = q.vsPpu) ∧
    (q'.console = q.console → b'[13].toNat / 16 = b[13].toNat / 16 → q'.vsHardware = q.vsHardware) ∧
    (b'[4] = b[4] → b'[9].toNat % 16 = b[9].toNat % 16 → q'.prgRom = q.prgRom) ∧
    (b'[5] = b[5] → b'[9].toNat / 16 = b[9].toNat / 16 → q'.chrRom = q.chrRom) ∧
    (b'[10].toNat % 16 = b[10].toNat % 16 → q'.prgRam = q.prgRam) ∧
    (b'[10].toNat / 16 = b[10].toNat / 16 → q'.prgNvram = q.prgNvram) ∧
    (b'[11].toNat % 16 = b[11].toNat % 16 → q'.chrRam = q.chrRam) ∧
    (b'[11].toNat / 16 = b[11].toNat / 16 → q'.chrNvram = q.chrNvram)

/-- R172: a record DECODE writes is in normal form, and every size field is the rendering of the count it denotes. -/
def Obligations.DecodedRecordIsInNormalForm : Prop :=
  ∀ (s t : State) (q : Record), exec .decode s = .next t → t.outRec = some q →
    NormalForm q ∧ (∃ n, q.prgRom = renderRom n) ∧ (∃ n, q.chrRom = renderRom n) ∧
      (∃ n, q.prgRam = some (renderRam n)) ∧ (∃ n, q.prgNvram = some (renderRam n)) ∧
      (∃ n, q.chrRam = some (renderRam n)) ∧ (∃ n, q.chrNvram = some (renderRam n))

/-- R180, R181, the first round-trip law: DECODE of the buffer ENCODE made of a valid record succeeds with a record equal
up to sizes to the record's normal form. The host copies OUT_BUF to IN_BUF (R235). -/
def Obligations.DecodeOfEncodeIsTheNormalForm : Prop :=
  ∀ (s t : State) (r : Record), s.inRec = some r → exec .encode s = .next t → t.status = 0x0001#16 → VsValid r →
    ∃ u q, exec .decode { t with inBuf := t.outBuf } = .next u ∧ EndsOk u ∧ u.outRec = some q ∧ EqUpToSizes q (norm r)

/-- R182, the second round-trip law: ENCODE of the record DECODE read from a buffer ENCODE produced gives the same buffer,
byte for byte. The host copies OUT_BUF to IN_BUF and OUT_REC to IN_REC (R235). -/
def Obligations.EncodeOfDecodeOfEncodeIsIdentical : Prop :=
  ∀ s t : State, exec .encode s = .next t → t.status = 0x0001#16 →
    ∃ u v, exec .decode { t with inBuf := t.outBuf } = .next u ∧ EndsOk u ∧
      exec .encode { u with inRec := u.outRec } = .next v ∧ EndsOk v ∧ v.outBuf = t.outBuf

/-! ### Whole machine (60_exceptions.md, 10_state.md) -/

/-- The invariant holds at reset. -/
def Obligations.InvHoldsAtReset : Prop := Inv State.reset

/-- Every step keeps the invariant, from every state that has it. Its clause on WB rests on log entry 6. -/
def Obligations.EveryStepKeepsInv : Prop := ∀ s t : State, Inv s → step s = .next t → Inv t

/-- R22: in every state with the invariant STATUS is well formed: reserved bits 0, STATE never 3, kind at most 11 and field
at most 11, both 0 when STATE is not ERROR, and a kind of at least 1 when it is. -/
def Obligations.StatusFieldsAreLegal : Prop :=
  ∀ s : State, Inv s →
    statusReserved s.status = 0 ∧ (statusState s.status).toNat ≤ 2 ∧ (statusKind s.status).toNat ≤ 11 ∧
    (statusField s.status).toNat ≤ 11 ∧ (statusState s.status = 2 ↔ statusKind s.status ≠ 0) ∧
    (statusState s.status ≠ 2 → statusField s.status = 0)

/-! ### Rendering laws (40_size_codec.md section 6) -/

/-- R123: a count DecRom returns is read back from its RenderRom, a count DecRam returns from its RenderRam, whatever field
the parse reports for; and both renderings, which are total, are well formed literals for every count. -/
def Obligations.RenderingsParseBack : Prop :=
  (∀ (lo : Byte) (hi : Nibble) (unit n : Nat) (lit : Literal) (f g : FieldId), unit = Config.prgUnit ∨ unit = Config.chrUnit →
    decRom lo hi unit f = .ok (n, lit) → parseLit (renderRom n) g = .ok n) ∧
  (∀ (c : Nibble) (g : FieldId), parseLit (renderRam (decRam c).1) g = .ok (decRam c).1) ∧
  (∀ n : Nat, wfLiteral (renderRom n) = true ∧ wfLiteral (renderRam n) = true)
end

