-- ==== Sys2Proof/Laws/State.lean ====
section
/-!
SUPPORT. One lemma per field of State and per named update, so that no proof unfolds a record update.
-/

namespace Sys2Proof.Machine

/-! ### clearOutputs -/

@[simp] theorem clearOutputs_cmd (s : State) : (clearOutputs s).cmd = s.cmd := rfl
@[simp] theorem clearOutputs_status (s : State) : (clearOutputs s).status = s.status := rfl
@[simp] theorem clearOutputs_errDetail (s : State) : (clearOutputs s).errDetail = s.errDetail := rfl
@[simp] theorem clearOutputs_inRec (s : State) : (clearOutputs s).inRec = s.inRec := rfl
@[simp] theorem clearOutputs_inBuf (s : State) : (clearOutputs s).inBuf = s.inBuf := rfl
@[simp] theorem clearOutputs_inLit (s : State) : (clearOutputs s).inLit = s.inLit := rfl
@[simp] theorem clearOutputs_inCount (s : State) : (clearOutputs s).inCount = s.inCount := rfl
@[simp] theorem clearOutputs_inLo (s : State) : (clearOutputs s).inLo = s.inLo := rfl
@[simp] theorem clearOutputs_inHi (s : State) : (clearOutputs s).inHi = s.inHi := rfl
@[simp] theorem clearOutputs_inCode (s : State) : (clearOutputs s).inCode = s.inCode := rfl
@[simp] theorem clearOutputs_outBuf (s : State) : (clearOutputs s).outBuf = none := rfl
@[simp] theorem clearOutputs_outRec (s : State) : (clearOutputs s).outRec = none := rfl
@[simp] theorem clearOutputs_outCount (s : State) : (clearOutputs s).outCount = none := rfl
@[simp] theorem clearOutputs_outLit (s : State) : (clearOutputs s).outLit = none := rfl
@[simp] theorem clearOutputs_outLo (s : State) : (clearOutputs s).outLo = none := rfl
@[simp] theorem clearOutputs_outHi (s : State) : (clearOutputs s).outHi = none := rfl
@[simp] theorem clearOutputs_outCode (s : State) : (clearOutputs s).outCode = none := rfl
@[simp] theorem clearOutputs_wb (s : State) : (clearOutputs s).wb = s.wb := rfl
@[simp] theorem clearOutputs_pending (s : State) : (clearOutputs s).pending = s.pending := rfl
@[simp] theorem clearOutputs_freeIdx (s : State) : (clearOutputs s).freeIdx = s.freeIdx := rfl

/-! ### succeed -/

@[simp] theorem succeed_cmd (s : State) : (succeed s).cmd = s.cmd := rfl
@[simp] theorem succeed_status (s : State) : (succeed s).status = statusOk := rfl
@[simp] theorem succeed_errDetail (s : State) : (succeed s).errDetail = .noDetail := rfl
@[simp] theorem succeed_inRec (s : State) : (succeed s).inRec = s.inRec := rfl
@[simp] theorem succeed_inBuf (s : State) : (succeed s).inBuf = s.inBuf := rfl
@[simp] theorem succeed_inLit (s : State) : (succeed s).inLit = s.inLit := rfl
@[simp] theorem succeed_inCount (s : State) : (succeed s).inCount = s.inCount := rfl
@[simp] theorem succeed_inLo (s : State) : (succeed s).inLo = s.inLo := rfl
@[simp] theorem succeed_inHi (s : State) : (succeed s).inHi = s.inHi := rfl
@[simp] theorem succeed_inCode (s : State) : (succeed s).inCode = s.inCode := rfl
@[simp] theorem succeed_outBuf (s : State) : (succeed s).outBuf = s.outBuf := rfl
@[simp] theorem succeed_outRec (s : State) : (succeed s).outRec = s.outRec := rfl
@[simp] theorem succeed_outCount (s : State) : (succeed s).outCount = s.outCount := rfl
@[simp] theorem succeed_outLit (s : State) : (succeed s).outLit = s.outLit := rfl
@[simp] theorem succeed_outLo (s : State) : (succeed s).outLo = s.outLo := rfl
@[simp] theorem succeed_outHi (s : State) : (succeed s).outHi = s.outHi := rfl
@[simp] theorem succeed_outCode (s : State) : (succeed s).outCode = s.outCode := rfl
@[simp] theorem succeed_wb (s : State) : (succeed s).wb = s.wb := rfl
@[simp] theorem succeed_pending (s : State) : (succeed s).pending = s.pending := rfl
@[simp] theorem succeed_freeIdx (s : State) : (succeed s).freeIdx = s.freeIdx := rfl

/-! ### discardWb -/

@[simp] theorem discardWb_cmd (s : State) : (discardWb s).cmd = s.cmd := rfl
@[simp] theorem discardWb_status (s : State) : (discardWb s).status = s.status := rfl
@[simp] theorem discardWb_errDetail (s : State) : (discardWb s).errDetail = s.errDetail := rfl
@[simp] theorem discardWb_inRec (s : State) : (discardWb s).inRec = s.inRec := rfl
@[simp] theorem discardWb_inBuf (s : State) : (discardWb s).inBuf = s.inBuf := rfl
@[simp] theorem discardWb_inLit (s : State) : (discardWb s).inLit = s.inLit := rfl
@[simp] theorem discardWb_inCount (s : State) : (discardWb s).inCount = s.inCount := rfl
@[simp] theorem discardWb_inLo (s : State) : (discardWb s).inLo = s.inLo := rfl
@[simp] theorem discardWb_inHi (s : State) : (discardWb s).inHi = s.inHi := rfl
@[simp] theorem discardWb_inCode (s : State) : (discardWb s).inCode = s.inCode := rfl
@[simp] theorem discardWb_outBuf (s : State) : (discardWb s).outBuf = s.outBuf := rfl
@[simp] theorem discardWb_outRec (s : State) : (discardWb s).outRec = s.outRec := rfl
@[simp] theorem discardWb_outCount (s : State) : (discardWb s).outCount = s.outCount := rfl
@[simp] theorem discardWb_outLit (s : State) : (discardWb s).outLit = s.outLit := rfl
@[simp] theorem discardWb_outLo (s : State) : (discardWb s).outLo = s.outLo := rfl
@[simp] theorem discardWb_outHi (s : State) : (discardWb s).outHi = s.outHi := rfl
@[simp] theorem discardWb_outCode (s : State) : (discardWb s).outCode = s.outCode := rfl
@[simp] theorem discardWb_wb (s : State) : (discardWb s).wb = Config.discardedWb s.freeIdx := rfl
@[simp] theorem discardWb_pending (s : State) : (discardWb s).pending = s.pending := rfl
@[simp] theorem discardWb_freeIdx (s : State) : (discardWb s).freeIdx = s.freeIdx + 1 := rfl

/-! ### raise -/

@[simp] theorem raise_cmd (e : Err) (s : State) : (raise e s).cmd = s.cmd := rfl
@[simp] theorem raise_status (e : Err) (s : State) : (raise e s).status = statusError e.kind e.field := rfl
@[simp] theorem raise_errDetail (e : Err) (s : State) : (raise e s).errDetail = e.detail := rfl
@[simp] theorem raise_inRec (e : Err) (s : State) : (raise e s).inRec = s.inRec := rfl
@[simp] theorem raise_inBuf (e : Err) (s : State) : (raise e s).inBuf = s.inBuf := rfl
@[simp] theorem raise_inLit (e : Err) (s : State) : (raise e s).inLit = s.inLit := rfl
@[simp] theorem raise_inCount (e : Err) (s : State) : (raise e s).inCount = s.inCount := rfl
@[simp] theorem raise_inLo (e : Err) (s : State) : (raise e s).inLo = s.inLo := rfl
@[simp] theorem raise_inHi (e : Err) (s : State) : (raise e s).inHi = s.inHi := rfl
@[simp] theorem raise_inCode (e : Err) (s : State) : (raise e s).inCode = s.inCode := rfl
@[simp] theorem raise_outBuf (e : Err) (s : State) : (raise e s).outBuf = s.outBuf := rfl
@[simp] theorem raise_outRec (e : Err) (s : State) : (raise e s).outRec = s.outRec := rfl
@[simp] theorem raise_outCount (e : Err) (s : State) : (raise e s).outCount = s.outCount := rfl
@[simp] theorem raise_outLit (e : Err) (s : State) : (raise e s).outLit = s.outLit := rfl
@[simp] theorem raise_outLo (e : Err) (s : State) : (raise e s).outLo = s.outLo := rfl
@[simp] theorem raise_outHi (e : Err) (s : State) : (raise e s).outHi = s.outHi := rfl
@[simp] theorem raise_outCode (e : Err) (s : State) : (raise e s).outCode = s.outCode := rfl
@[simp] theorem raise_wb (e : Err) (s : State) : (raise e s).wb = Config.discardedWb s.freeIdx := rfl
@[simp] theorem raise_pending (e : Err) (s : State) : (raise e s).pending = s.pending := rfl
@[simp] theorem raise_freeIdx (e : Err) (s : State) : (raise e s).freeIdx = s.freeIdx + 1 := rfl

/-! ### putCount -/

@[simp] theorem putCount_cmd (n : Nat) (s : State) : (putCount n s).cmd = s.cmd := rfl
@[simp] theorem putCount_status (n : Nat) (s : State) : (putCount n s).status = s.status := rfl
@[simp] theorem putCount_errDetail (n : Nat) (s : State) : (putCount n s).errDetail = s.errDetail := rfl
@[simp] theorem putCount_inRec (n : Nat) (s : State) : (putCount n s).inRec = s.inRec := rfl
@[simp] theorem putCount_inBuf (n : Nat) (s : State) : (putCount n s).inBuf = s.inBuf := rfl
@[simp] theorem putCount_inLit (n : Nat) (s : State) : (putCount n s).inLit = s.inLit := rfl
@[simp] theorem putCount_inCount (n : Nat) (s : State) : (putCount n s).inCount = s.inCount := rfl
@[simp] theorem putCount_inLo (n : Nat) (s : State) : (putCount n s).inLo = s.inLo := rfl
@[simp] theorem putCount_inHi (n : Nat) (s : State) : (putCount n s).inHi = s.inHi := rfl
@[simp] theorem putCount_inCode (n : Nat) (s : State) : (putCount n s).inCode = s.inCode := rfl
@[simp] theorem putCount_outBuf (n : Nat) (s : State) : (putCount n s).outBuf = s.outBuf := rfl
@[simp] theorem putCount_outRec (n : Nat) (s : State) : (putCount n s).outRec = s.outRec := rfl
@[simp] theorem putCount_outCount (n : Nat) (s : State) : (putCount n s).outCount = some (BitVec.ofNat Config.bytecountW n) := rfl
@[simp] theorem putCount_outLit (n : Nat) (s : State) : (putCount n s).outLit = s.outLit := rfl
@[simp] theorem putCount_outLo (n : Nat) (s : State) : (putCount n s).outLo = s.outLo := rfl
@[simp] theorem putCount_outHi (n : Nat) (s : State) : (putCount n s).outHi = s.outHi := rfl
@[simp] theorem putCount_outCode (n : Nat) (s : State) : (putCount n s).outCode = s.outCode := rfl
@[simp] theorem putCount_wb (n : Nat) (s : State) : (putCount n s).wb = s.wb := rfl
@[simp] theorem putCount_pending (n : Nat) (s : State) : (putCount n s).pending = s.pending := rfl
@[simp] theorem putCount_freeIdx (n : Nat) (s : State) : (putCount n s).freeIdx = s.freeIdx := rfl

/-! ### putCountLit -/

@[simp] theorem putCountLit_cmd (p : Nat × Literal) (s : State) : (putCountLit p s).cmd = s.cmd := rfl
@[simp] theorem putCountLit_status (p : Nat × Literal) (s : State) : (putCountLit p s).status = s.status := rfl
@[simp] theorem putCountLit_errDetail (p : Nat × Literal) (s : State) : (putCountLit p s).errDetail = s.errDetail := rfl
@[simp] theorem putCountLit_inRec (p : Nat × Literal) (s : State) : (putCountLit p s).inRec = s.inRec := rfl
@[simp] theorem putCountLit_inBuf (p : Nat × Literal) (s : State) : (putCountLit p s).inBuf = s.inBuf := rfl
@[simp] theorem putCountLit_inLit (p : Nat × Literal) (s : State) : (putCountLit p s).inLit = s.inLit := rfl
@[simp] theorem putCountLit_inCount (p : Nat × Literal) (s : State) : (putCountLit p s).inCount = s.inCount := rfl
@[simp] theorem putCountLit_inLo (p : Nat × Literal) (s : State) : (putCountLit p s).inLo = s.inLo := rfl
@[simp] theorem putCountLit_inHi (p : Nat × Literal) (s : State) : (putCountLit p s).inHi = s.inHi := rfl
@[simp] theorem putCountLit_inCode (p : Nat × Literal) (s : State) : (putCountLit p s).inCode = s.inCode := rfl
@[simp] theorem putCountLit_outBuf (p : Nat × Literal) (s : State) : (putCountLit p s).outBuf = s.outBuf := rfl
@[simp] theorem putCountLit_outRec (p : Nat × Literal) (s : State) : (putCountLit p s).outRec = s.outRec := rfl
@[simp] theorem putCountLit_outCount (p : Nat × Literal) (s : State) : (putCountLit p s).outCount = some (BitVec.ofNat Config.bytecountW p.1) := rfl
@[simp] theorem putCountLit_outLit (p : Nat × Literal) (s : State) : (putCountLit p s).outLit = some p.2 := rfl
@[simp] theorem putCountLit_outLo (p : Nat × Literal) (s : State) : (putCountLit p s).outLo = s.outLo := rfl
@[simp] theorem putCountLit_outHi (p : Nat × Literal) (s : State) : (putCountLit p s).outHi = s.outHi := rfl
@[simp] theorem putCountLit_outCode (p : Nat × Literal) (s : State) : (putCountLit p s).outCode = s.outCode := rfl
@[simp] theorem putCountLit_wb (p : Nat × Literal) (s : State) : (putCountLit p s).wb = s.wb := rfl
@[simp] theorem putCountLit_pending (p : Nat × Literal) (s : State) : (putCountLit p s).pending = s.pending := rfl
@[simp] theorem putCountLit_freeIdx (p : Nat × Literal) (s : State) : (putCountLit p s).freeIdx = s.freeIdx := rfl

/-! ### putLoHi -/

@[simp] theorem putLoHi_cmd (p : Byte × Nibble) (s : State) : (putLoHi p s).cmd = s.cmd := rfl
@[simp] theorem putLoHi_status (p : Byte × Nibble) (s : State) : (putLoHi p s).status = s.status := rfl
@[simp] theorem putLoHi_errDetail (p : Byte × Nibble) (s : State) : (putLoHi p s).errDetail = s.errDetail := rfl
@[simp] theorem putLoHi_inRec (p : Byte × Nibble) (s : State) : (putLoHi p s).inRec = s.inRec := rfl
@[simp] theorem putLoHi_inBuf (p : Byte × Nibble) (s : State) : (putLoHi p s).inBuf = s.inBuf := rfl
@[simp] theorem putLoHi_inLit (p : Byte × Nibble) (s : State) : (putLoHi p s).inLit = s.inLit := rfl
@[simp] theorem putLoHi_inCount (p : Byte × Nibble) (s : State) : (putLoHi p s).inCount = s.inCount := rfl
@[simp] theorem putLoHi_inLo (p : Byte × Nibble) (s : State) : (putLoHi p s).inLo = s.inLo := rfl
@[simp] theorem putLoHi_inHi (p : Byte × Nibble) (s : State) : (putLoHi p s).inHi = s.inHi := rfl
@[simp] theorem putLoHi_inCode (p : Byte × Nibble) (s : State) : (putLoHi p s).inCode = s.inCode := rfl
@[simp] theorem putLoHi_outBuf (p : Byte × Nibble) (s : State) : (putLoHi p s).outBuf = s.outBuf := rfl
@[simp] theorem putLoHi_outRec (p : Byte × Nibble) (s : State) : (putLoHi p s).outRec = s.outRec := rfl
@[simp] theorem putLoHi_outCount (p : Byte × Nibble) (s : State) : (putLoHi p s).outCount = s.outCount := rfl
@[simp] theorem putLoHi_outLit (p : Byte × Nibble) (s : State) : (putLoHi p s).outLit = s.outLit := rfl
@[simp] theorem putLoHi_outLo (p : Byte × Nibble) (s : State) : (putLoHi p s).outLo = some p.1 := rfl
@[simp] theorem putLoHi_outHi (p : Byte × Nibble) (s : State) : (putLoHi p s).outHi = some p.2 := rfl
@[simp] theorem putLoHi_outCode (p : Byte × Nibble) (s : State) : (putLoHi p s).outCode = s.outCode := rfl
@[simp] theorem putLoHi_wb (p : Byte × Nibble) (s : State) : (putLoHi p s).wb = s.wb := rfl
@[simp] theorem putLoHi_pending (p : Byte × Nibble) (s : State) : (putLoHi p s).pending = s.pending := rfl
@[simp] theorem putLoHi_freeIdx (p : Byte × Nibble) (s : State) : (putLoHi p s).freeIdx = s.freeIdx := rfl

/-! ### putCode -/

@[simp] theorem putCode_cmd (c : Nibble) (s : State) : (putCode c s).cmd = s.cmd := rfl
@[simp] theorem putCode_status (c : Nibble) (s : State) : (putCode c s).status = s.status := rfl
@[simp] theorem putCode_errDetail (c : Nibble) (s : State) : (putCode c s).errDetail = s.errDetail := rfl
@[simp] theorem putCode_inRec (c : Nibble) (s : State) : (putCode c s).inRec = s.inRec := rfl
@[simp] theorem putCode_inBuf (c : Nibble) (s : State) : (putCode c s).inBuf = s.inBuf := rfl
@[simp] theorem putCode_inLit (c : Nibble) (s : State) : (putCode c s).inLit = s.inLit := rfl
@[simp] theorem putCode_inCount (c : Nibble) (s : State) : (putCode c s).inCount = s.inCount := rfl
@[simp] theorem putCode_inLo (c : Nibble) (s : State) : (putCode c s).inLo = s.inLo := rfl
@[simp] theorem putCode_inHi (c : Nibble) (s : State) : (putCode c s).inHi = s.inHi := rfl
@[simp] theorem putCode_inCode (c : Nibble) (s : State) : (putCode c s).inCode = s.inCode := rfl
@[simp] theorem putCode_outBuf (c : Nibble) (s : State) : (putCode c s).outBuf = s.outBuf := rfl
@[simp] theorem putCode_outRec (c : Nibble) (s : State) : (putCode c s).outRec = s.outRec := rfl
@[simp] theorem putCode_outCount (c : Nibble) (s : State) : (putCode c s).outCount = s.outCount := rfl
@[simp] theorem putCode_outLit (c : Nibble) (s : State) : (putCode c s).outLit = s.outLit := rfl
@[simp] theorem putCode_outLo (c : Nibble) (s : State) : (putCode c s).outLo = s.outLo := rfl
@[simp] theorem putCode_outHi (c : Nibble) (s : State) : (putCode c s).outHi = s.outHi := rfl
@[simp] theorem putCode_outCode (c : Nibble) (s : State) : (putCode c s).outCode = some c := rfl
@[simp] theorem putCode_wb (c : Nibble) (s : State) : (putCode c s).wb = s.wb := rfl
@[simp] theorem putCode_pending (c : Nibble) (s : State) : (putCode c s).pending = s.pending := rfl
@[simp] theorem putCode_freeIdx (c : Nibble) (s : State) : (putCode c s).freeIdx = s.freeIdx := rfl

/-! ### putBuffer -/

@[simp] theorem putBuffer_cmd (b : Buffer) (s : State) : (putBuffer b s).cmd = s.cmd := rfl
@[simp] theorem putBuffer_status (b : Buffer) (s : State) : (putBuffer b s).status = s.status := rfl
@[simp] theorem putBuffer_errDetail (b : Buffer) (s : State) : (putBuffer b s).errDetail = s.errDetail := rfl
@[simp] theorem putBuffer_inRec (b : Buffer) (s : State) : (putBuffer b s).inRec = s.inRec := rfl
@[simp] theorem putBuffer_inBuf (b : Buffer) (s : State) : (putBuffer b s).inBuf = s.inBuf := rfl
@[simp] theorem putBuffer_inLit (b : Buffer) (s : State) : (putBuffer b s).inLit = s.inLit := rfl
@[simp] theorem putBuffer_inCount (b : Buffer) (s : State) : (putBuffer b s).inCount = s.inCount := rfl
@[simp] theorem putBuffer_inLo (b : Buffer) (s : State) : (putBuffer b s).inLo = s.inLo := rfl
@[simp] theorem putBuffer_inHi (b : Buffer) (s : State) : (putBuffer b s).inHi = s.inHi := rfl
@[simp] theorem putBuffer_inCode (b : Buffer) (s : State) : (putBuffer b s).inCode = s.inCode := rfl
@[simp] theorem putBuffer_outBuf (b : Buffer) (s : State) : (putBuffer b s).outBuf = some b := rfl
@[simp] theorem putBuffer_outRec (b : Buffer) (s : State) : (putBuffer b s).outRec = s.outRec := rfl
@[simp] theorem putBuffer_outCount (b : Buffer) (s : State) : (putBuffer b s).outCount = s.outCount := rfl
@[simp] theorem putBuffer_outLit (b : Buffer) (s : State) : (putBuffer b s).outLit = s.outLit := rfl
@[simp] theorem putBuffer_outLo (b : Buffer) (s : State) : (putBuffer b s).outLo = s.outLo := rfl
@[simp] theorem putBuffer_outHi (b : Buffer) (s : State) : (putBuffer b s).outHi = s.outHi := rfl
@[simp] theorem putBuffer_outCode (b : Buffer) (s : State) : (putBuffer b s).outCode = s.outCode := rfl
@[simp] theorem putBuffer_wb (b : Buffer) (s : State) : (putBuffer b s).wb = b := rfl
@[simp] theorem putBuffer_pending (b : Buffer) (s : State) : (putBuffer b s).pending = s.pending := rfl
@[simp] theorem putBuffer_freeIdx (b : Buffer) (s : State) : (putBuffer b s).freeIdx = s.freeIdx := rfl

/-! ### putRecord -/

@[simp] theorem putRecord_cmd (r : Record) (s : State) : (putRecord r s).cmd = s.cmd := rfl
@[simp] theorem putRecord_status (r : Record) (s : State) : (putRecord r s).status = s.status := rfl
@[simp] theorem putRecord_errDetail (r : Record) (s : State) : (putRecord r s).errDetail = s.errDetail := rfl
@[simp] theorem putRecord_inRec (r : Record) (s : State) : (putRecord r s).inRec = s.inRec := rfl
@[simp] theorem putRecord_inBuf (r : Record) (s : State) : (putRecord r s).inBuf = s.inBuf := rfl
@[simp] theorem putRecord_inLit (r : Record) (s : State) : (putRecord r s).inLit = s.inLit := rfl
@[simp] theorem putRecord_inCount (r : Record) (s : State) : (putRecord r s).inCount = s.inCount := rfl
@[simp] theorem putRecord_inLo (r : Record) (s : State) : (putRecord r s).inLo = s.inLo := rfl
@[simp] theorem putRecord_inHi (r : Record) (s : State) : (putRecord r s).inHi = s.inHi := rfl
@[simp] theorem putRecord_inCode (r : Record) (s : State) : (putRecord r s).inCode = s.inCode := rfl
@[simp] theorem putRecord_outBuf (r : Record) (s : State) : (putRecord r s).outBuf = s.outBuf := rfl
@[simp] theorem putRecord_outRec (r : Record) (s : State) : (putRecord r s).outRec = some r := rfl
@[simp] theorem putRecord_outCount (r : Record) (s : State) : (putRecord r s).outCount = s.outCount := rfl
@[simp] theorem putRecord_outLit (r : Record) (s : State) : (putRecord r s).outLit = s.outLit := rfl
@[simp] theorem putRecord_outLo (r : Record) (s : State) : (putRecord r s).outLo = s.outLo := rfl
@[simp] theorem putRecord_outHi (r : Record) (s : State) : (putRecord r s).outHi = s.outHi := rfl
@[simp] theorem putRecord_outCode (r : Record) (s : State) : (putRecord r s).outCode = s.outCode := rfl
@[simp] theorem putRecord_wb (r : Record) (s : State) : (putRecord r s).wb = s.wb := rfl
@[simp] theorem putRecord_pending (r : Record) (s : State) : (putRecord r s).pending = s.pending := rfl
@[simp] theorem putRecord_freeIdx (r : Record) (s : State) : (putRecord r s).freeIdx = s.freeIdx := rfl

end Sys2Proof.Machine
end

