-- ==== Sys2Proof/Laws/Ops.lean ====
section
/-!
SUPPORT. What the shared operations can do: the ends of a command, the reading of inputs, the registers by name, and the
bytes and nibbles of a buffer.
-/

namespace Sys2Proof.Machine

/-! ### The ends of a command -/

/-- `complete` always answers a next state. -/
theorem complete_next (x : Except Err (State → State)) (s : State) : ∃ t, complete x s = .next t := by
  cases x <;> exact ⟨_, rfl⟩

/-- Everything `complete` can do. -/
theorem complete_cases {x : Except Err (State → State)} {s t : State} (h : complete x s = .next t) :
    (∃ w, x = .ok w ∧ t = succeed (w (clearOutputs s))) ∨ (∃ e, x = .error e ∧ t = raise e (clearOutputs s)) := by
  cases x with
  | ok w => exact .inl ⟨w, rfl, (Host.Outcome.next.inj h).symm⟩
  | error e => exact .inr ⟨e, rfl, (Host.Outcome.next.inj h).symm⟩

@[simp] theorem complete_ok (w : State → State) (s : State) : complete (.ok w) s = .next (succeed (w (clearOutputs s))) := rfl

@[simp] theorem complete_error (e : Err) (s : State) : complete (.error e) s = .next (raise e (clearOutputs s)) := rfl

@[simp] theorem withInput_some {α : Type} (r : InReg) (x : α) (k : α → Host.Outcome State Fault Refusal) :
    withInput r (some x) k = k x := rfl

@[simp] theorem withInput_none {α : Type} (r : InReg) (k : α → Host.Outcome State Fault Refusal) :
    withInput r none k = .fault (.unsetInput r) := rfl

/-- Everything `withInput` can do. -/
theorem withInput_cases {α : Type} {r : InReg} {v : Option α} {k : α → Host.Outcome State Fault Refusal}
    {out : Host.Outcome State Fault Refusal} (h : withInput r v k = out) :
    (∃ x, v = some x ∧ k x = out) ∨ (v = none ∧ out = .fault (.unsetInput r)) := by
  cases v with
  | some x => exact .inl ⟨x, rfl, h⟩
  | none => exact .inr ⟨rfl, h.symm⟩

/-! ### Results of computations -/

@[simp] theorem map_ok {α β : Type} (f : α → β) (x : α) : (Except.ok x : Except Err α).map f = .ok (f x) := rfl

@[simp] theorem map_error {α β : Type} (f : α → β) (e : Err) : (Except.error e : Except Err α).map f = .error e := rfl

@[simp] theorem bind_ok {α β : Type} (x : α) (f : α → Except Err β) : (Except.ok x >>= f) = f x := rfl

@[simp] theorem bind_error {α β : Type} (e : Err) (f : α → Except Err β) : (Except.error e >>= f) = .error e := rfl

/-- A computation that binds two succeeds exactly when both do. -/
theorem bind_eq_ok {α β : Type} {x : Except Err α} {f : α → Except Err β} {b : β} :
    (x >>= f) = .ok b ↔ ∃ a, x = .ok a ∧ f a = .ok b := by
  cases x <;> simp

/-- A computation that binds two fails exactly when one of them does. -/
theorem bind_eq_error {α β : Type} {x : Except Err α} {f : α → Except Err β} {e : Err} :
    (x >>= f) = .error e ↔ x = .error e ∨ ∃ a, x = .ok a ∧ f a = .error e := by
  cases x <;> simp

theorem map_eq_ok {α β : Type} {x : Except Err α} {f : α → β} {b : β} : x.map f = .ok b ↔ ∃ a, x = .ok a ∧ f a = b := by
  cases x <;> simp

theorem map_eq_error {α β : Type} {x : Except Err α} {f : α → β} {e : Err} : x.map f = .error e ↔ x = .error e := by
  cases x <;> simp

@[simp] theorem errOf_ok {α : Type} (x : α) : errOf (Except.ok x) = none := rfl

@[simp] theorem errOf_error {α : Type} (e : Err) : errOf (Except.error e : Except Err α) = some e := rfl

/-! ### Registers by name -/

@[simp] theorem clearOutputs_output (s : State) (o : OutReg) : (clearOutputs s).output o = none := by cases o <;> rfl

@[simp] theorem succeed_output (s : State) (o : OutReg) : (succeed s).output o = s.output o := by cases o <;> rfl

@[simp] theorem raise_output (e : Err) (s : State) (o : OutReg) : (raise e s).output o = s.output o := by cases o <;> rfl

/-- `raise` and `succeed` leave every host-side register alone, and so do the writers of outputs. -/
theorem commandFrame_refl (s : State) : CommandFrame s s := ⟨⟨rfl, rfl, rfl, rfl, rfl, rfl, rfl⟩, rfl, rfl⟩

theorem raise_frame (e : Err) (s : State) : CommandFrame s (raise e (clearOutputs s)) :=
  ⟨⟨rfl, rfl, rfl, rfl, rfl, rfl, rfl⟩, rfl, rfl⟩

/-- The STATUS of an error as a number: the fields do not overlap (R22, R205). -/
theorem statusError_toNat (k : ErrKind) (f : FieldId) :
    (statusError k f).toNat = 2 + 16 * k.code.toNat + 256 * f.code.toNat := by
  cases k <;> cases f <;> decide

/-- A raised error ends as R205 says. -/
theorem raise_endsInError (e : Err) (s : State) :
    EndsInError (raise e (clearOutputs s)) e.kind e.field e.detail :=
  ⟨statusError_toNat e.kind e.field, rfl, fun o => by simp⟩

@[simp] theorem writeInput_input (w : InputWrite) (s : State) : (writeInput w s).input w.reg = some w.value := by
  cases w <;> rfl

theorem writeInput_input_ne {w : InputWrite} {r : InReg} (h : w.reg ≠ r) (s : State) :
    (writeInput w s).input r = s.input r := by
  cases w <;> cases r <;> first | rfl | exact absurd rfl h

theorem writeInput_output (w : InputWrite) (s : State) (o : OutReg) : (writeInput w s).output o = s.output o := by
  cases w <;> cases o <;> rfl

@[simp] theorem writeInput_status (w : InputWrite) (s : State) : (writeInput w s).status = s.status := by cases w <;> rfl

@[simp] theorem writeInput_errDetail (w : InputWrite) (s : State) : (writeInput w s).errDetail = s.errDetail := by
  cases w <;> rfl

@[simp] theorem writeInput_cmd (w : InputWrite) (s : State) : (writeInput w s).cmd = s.cmd := by cases w <;> rfl

@[simp] theorem writeInput_pending (w : InputWrite) (s : State) : (writeInput w s).pending = s.pending := by
  cases w <;> rfl

@[simp] theorem writeInput_wb (w : InputWrite) (s : State) : (writeInput w s).wb = s.wb := by cases w <;> rfl

/-! ### Bytes and nibbles -/

@[simp] theorem byteAt_orAt_same (b : Buffer) (i : Fin 16) (v : Byte) : byteAt (orAt b i v) i = byteAt b i ||| v := by
  simp [byteAt, orAt]

@[simp] theorem byteAt_orAt_ne (b : Buffer) {i j : Fin 16} (h : i ≠ j) (v : Byte) :
    byteAt (orAt b i v) j = byteAt b j := by
  have : i.val ≠ j.val := fun e => h (Fin.ext e)
  simp [byteAt, orAt, this]

/-- Two buffers with the same sixteen bytes are one. -/
theorem buffer_ext {a b : Buffer} (h : ∀ i, byteAt a i = byteAt b i) : a = b := by
  apply Vector.ext
  intro i hi
  exact h ⟨i, hi⟩

@[simp] theorem lowNibble_or (x y : Byte) : lowNibble (x ||| y) = lowNibble x ||| lowNibble y := by
  simp [lowNibble, BitVec.extractLsb'_or]

@[simp] theorem highNibble_or (x y : Byte) : highNibble (x ||| y) = highNibble x ||| highNibble y := by
  simp [highNibble, BitVec.extractLsb'_or]

@[simp] theorem lowNibble_inLow (k : Nibble) : lowNibble (inLow k) = k := by decide +revert

@[simp] theorem highNibble_inLow (k : Nibble) : highNibble (inLow k) = 0 := by decide +revert

@[simp] theorem lowNibble_inHigh (k : Nibble) : lowNibble (inHigh k) = 0 := by decide +revert

@[simp] theorem highNibble_inHigh (k : Nibble) : highNibble (inHigh k) = k := by decide +revert

/-- A byte is its two nibbles. -/
theorem inHigh_or_inLow (v : Byte) : inLow (lowNibble v) ||| inHigh (highNibble v) = v := by decide +revert

theorem lowNibble_toNat (v : Byte) : (lowNibble v).toNat = v.toNat % 16 := by
  simp [lowNibble, BitVec.extractLsb'_toNat]

theorem highNibble_toNat (v : Byte) : (highNibble v).toNat = v.toNat / 16 := by
  have := v.isLt
  simp [highNibble, BitVec.extractLsb'_toNat, Nat.shiftRight_eq_div_pow]
  omega

/-- A one-byte `memRead` is the byte. -/
theorem memRead_one (b : Buffer) (i : Fin 16) : memRead b i.val 1 (by omega) = (byteAt b i).toNat := by
  simp [memRead, byteAt]

/-- A one-byte `memWrite` sets the byte. -/
theorem memWrite_one (b : Buffer) (i : Fin 16) (v : Byte) : memWrite b i.val 1 v.toNat (by omega) = b.set i v := by
  simp [memWrite]

end Sys2Proof.Machine
end

