-- ==== Sys2Proof/Laws/SizeCodec.lean ====
section
/-!
SUPPORT. What the functions of the Size Codec can answer: digit strings and literals, the parse, the two renderings, the
ROM-class and RAM-class forms.
-/

namespace Sys2Proof.Machine

/-! ### Digit strings -/

@[simp] theorem decValue_nil : decValue [] = 0 := rfl

/-- The last digit is the least significant. -/
@[simp] theorem decValue_append (d : Literal) (c : Byte) : decValue (d ++ [c]) = 10 * decValue d + (c.toNat - 0x30) := by
  simp [decValue]

theorem digitByte_toNat {n : Nat} (h : n < 10) : (digitByte n).toNat = 0x30 + n := by
  simp [digitByte]
  omega

theorem isDigitByte_digitByte {n : Nat} (h : n < 10) : isDigitByte (digitByte n) = true := by
  simp [isDigitByte, digitByte_toNat h]
  omega

/-- A digit is neither suffix. -/
theorem digit_ne_suffix {c : Byte} (h : isDigitByte c = true) : c ≠ 0x4B#8 ∧ c ≠ 0x4D#8 := by
  constructor <;> rintro rfl <;> exact absurd h (by decide)

/-- A string of digits, at least one. -/
structure Digits (d : Literal) : Prop where
  ne : d ≠ []
  all : d.all isDigitByte = true

theorem decDigits_spec (fuel : Nat) : ∀ n, n < 10 ^ fuel → 0 < fuel → Digits (decDigits fuel n) ∧ decValue (decDigits fuel n) = n := by
  induction fuel with
  | zero => intro n _ h; omega
  | succ f ih =>
    intro n hn _
    unfold decDigits
    by_cases h : n < 10
    · rw [if_pos h]
      refine ⟨⟨by simp, by simp [isDigitByte_digitByte h]⟩, ?_⟩
      simp [decValue, digitByte_toNat h]
    · have hf : 0 < f := by
        rcases Nat.eq_zero_or_pos f with rfl | hf
        · simp at hn; omega
        · exact hf
      have hm : n % 10 < 10 := Nat.mod_lt _ (by decide)
      obtain ⟨hd, hv⟩ := ih (n / 10) (by rw [Nat.pow_succ] at hn; omega) hf
      rw [if_neg h]
      refine ⟨⟨by simp, ?_⟩, ?_⟩
      · simp only [List.all_append, hd.all, List.all_cons, isDigitByte_digitByte hm, List.all_nil, Bool.and_self]
      · rw [decValue_append, hv, digitByte_toNat hm]
        omega

theorem lt_ten_pow_succ (n : Nat) : n < 10 ^ (n + 1) :=
  Nat.lt_of_lt_of_le (Nat.lt_pow_self (by decide)) (Nat.pow_le_pow_right (by decide) (Nat.le_succ n))

/-- `DecStr(n)` is a digit string. -/
theorem decStr_digits (n : Nat) : Digits (decStr n) := (decDigits_spec (n + 1) n (lt_ten_pow_succ n) (Nat.succ_pos n)).1

/-- `DecStr(n)` denotes n. -/
@[simp] theorem decValue_decStr (n : Nat) : decValue (decStr n) = n :=
  (decDigits_spec (n + 1) n (lt_ten_pow_succ n) (Nat.succ_pos n)).2

/-! ### Literals -/

theorem splitSuffix_digits {d : Literal} (h : Digits d) : splitSuffix d = (d, 1) := by
  have hl : isDigitByte (d.getLast h.ne) = true := List.all_eq_true.mp h.all _ (List.getLast_mem h.ne)
  have := digit_ne_suffix hl
  simp [splitSuffix, List.getLast?_eq_some_getLast h.ne, this.1, this.2]

@[simp] theorem splitSuffix_kilo (d : Literal) : splitSuffix (d ++ [0x4B#8]) = (d, 1024) := by simp [splitSuffix]

@[simp] theorem splitSuffix_mega (d : Literal) : splitSuffix (d ++ [0x4D#8]) = (d, 1048576) := by simp [splitSuffix]

theorem suffix_pos {suf : Literal} {m : Nat} (hs : (suf, m) ∈ suffixes) : 0 < m := by
  have : ∀ p ∈ suffixes, 0 < p.2 := by decide
  exact this (suf, m) hs

/-- A digit string followed by one of the three suffixes splits into the two. -/
theorem splitSuffix_append {d suf : Literal} {m : Nat} (h : Digits d) (hs : (suf, m) ∈ suffixes) :
    splitSuffix (d ++ suf) = (d, m) := by
  simp only [suffixes, List.mem_cons, Prod.mk.injEq, List.not_mem_nil, or_false] at hs
  rcases hs with ⟨rfl, rfl⟩ | ⟨rfl, rfl⟩ | ⟨rfl, rfl⟩
  · simpa using splitSuffix_digits h
  · exact splitSuffix_kilo d
  · exact splitSuffix_mega d

/-- A split literal is its digit portion followed by the suffix that has the multiplier. -/
theorem splitSuffix_eq (s : Literal) : ∃ suf, s = (splitSuffix s).1 ++ suf ∧ (suf, (splitSuffix s).2) ∈ suffixes := by
  unfold splitSuffix
  rcases List.eq_nil_or_concat s with rfl | ⟨d, c, rfl⟩
  · exact ⟨[], by simp [suffixes]⟩
  · simp only [List.concat_eq_append, List.getLast?_append, List.getLast?_singleton, Option.some_or, List.dropLast_concat]
    split
    · rename_i h; subst h; exact ⟨[0x4B#8], rfl, by simp [suffixes]⟩
    · split
      · rename_i h; subst h; exact ⟨[0x4D#8], rfl, by simp [suffixes]⟩
      · exact ⟨[], by simp, by simp [suffixes]⟩

/-- Everything ParseLit does with a digit string and a suffix. -/
theorem parseLit_append {d suf : Literal} {m : Nat} (h : Digits d) (hs : (suf, m) ∈ suffixes) (f : FieldId) :
    parseLit (d ++ suf) f =
      if decValue d > maxCount then .error ⟨.invalidLiteral, f, .text (d ++ suf)⟩
      else if decValue d * m > maxCount then .error ⟨.overflow, f, .text (d ++ suf)⟩
      else .ok (decValue d * m) := by
  simp only [parseLit, splitSuffix_append h hs, h.ne, h.all, if_false, Bool.not_true, Bool.false_eq_true]

/-- ParseLit accepts a digit string with a suffix whose value fits. -/
theorem parseLit_append_ok {d suf : Literal} {m : Nat} (h : Digits d) (hs : (suf, m) ∈ suffixes) (hm : 0 < m)
    (hv : decValue d * m ≤ maxCount) (f : FieldId) : parseLit (d ++ suf) f = .ok (decValue d * m) := by
  have : decValue d ≤ decValue d * m := Nat.le_mul_of_pos_right _ hm
  rw [parseLit_append h hs, if_neg (by omega), if_neg (by omega)]

/-- What ParseLit accepts, and what it then answers. -/
theorem parseLit_ok {s : Literal} {f : FieldId} {n : Nat} (h : parseLit s f = .ok n) :
    Digits (splitSuffix s).1 ∧ n = decValue (splitSuffix s).1 * (splitSuffix s).2 ∧ n ≤ maxCount := by
  simp only [parseLit] at h
  split at h
  · cases h
  · split at h
    · cases h
    · split at h
      · cases h
      · split at h
        · cases h
        · cases h
          rename_i h1 h2 _ _
          exact ⟨⟨h1, by simpa using h2⟩, rfl, by omega⟩

/-- The error of ParseLit carries the field and the whole literal, and is one of two kinds. -/
theorem parseLit_error {s : Literal} {f : FieldId} {e : Err} (h : parseLit s f = .error e) :
    e = ⟨.invalidLiteral, f, .text s⟩ ∨ e = ⟨.overflow, f, .text s⟩ := by
  simp only [parseLit] at h
  repeat' split at h
  all_goals cases h <;> simp

/-- The field decides nothing but the field of the error. -/
theorem parseLit_field {s : Literal} {f : FieldId} (g : FieldId) {n : Nat} (h : parseLit s f = .ok n) :
    parseLit s g = .ok n := by
  obtain ⟨suf, he, hs⟩ := splitSuffix_eq s
  obtain ⟨hd, hn, hle⟩ := parseLit_ok h
  rw [he, parseLit_append_ok hd hs (suffix_pos hs) (by omega), hn]

theorem wfLiteralFrom_digits (d suf : Literal) (h : d.all isDigitByte = true) (seen : Bool) :
    wfLiteralFrom seen (d ++ suf) = wfLiteralFrom (seen || !d.isEmpty) suf := by
  induction d generalizing seen with
  | nil => simp
  | cons c d ih =>
    simp only [List.all_cons, Bool.and_eq_true] at h
    simp [wfLiteralFrom, h.1, ih h.2]

/-- A digit string with a suffix is a well formed literal (R73). -/
theorem wfLiteral_append {d suf : Literal} {m : Nat} (h : Digits d) (hs : (suf, m) ∈ suffixes) :
    wfLiteral (d ++ suf) = true := by
  have hne : d.isEmpty = false := by simp [h.ne]
  rw [wfLiteral, wfLiteralFrom_digits d suf h.all]
  simp only [suffixes, List.mem_cons, Prod.mk.injEq, List.not_mem_nil, or_false] at hs
  rcases hs with ⟨rfl, -⟩ | ⟨rfl, -⟩ | ⟨rfl, -⟩ <;> simp [hne, wfLiteralFrom, isDigitByte]

/-- A well formed literal is a digit string with a suffix (R73). -/
theorem wfLiteral_split {s : Literal} (h : wfLiteral s = true) :
    ∃ d suf m, s = d ++ suf ∧ Digits d ∧ (suf, m) ∈ suffixes := by
  suffices H : ∀ (s : Literal) (p : Literal), p.all isDigitByte = true → wfLiteralFrom (!p.isEmpty) s = true →
      ∃ d suf m, p ++ s = d ++ suf ∧ Digits d ∧ (suf, m) ∈ suffixes by
    simpa using H s [] rfl h
  intro s
  induction s with
  | nil =>
    intro p hp hs
    exact ⟨p, [], 1, rfl, ⟨by simpa [wfLiteralFrom] using hs, hp⟩, by simp [suffixes]⟩
  | cons c s ih =>
    intro p hp hs
    by_cases hc : isDigitByte c = true
    · have hq : wfLiteralFrom (!(p ++ [c]).isEmpty) s = true := by
        have : (p ++ [c]).isEmpty = false := by simp
        rw [this]
        simpa [wfLiteralFrom, hc] using hs
      obtain ⟨d, suf, m, he, hd, hm⟩ := ih (p ++ [c]) (by simp only [List.all_append, hp, List.all_cons, hc, List.all_nil, Bool.and_self]) hq
      exact ⟨d, suf, m, by simpa using he, hd, hm⟩
    · simp [wfLiteralFrom, hc] at hs
      obtain ⟨⟨hne, rfl⟩, rfl | rfl⟩ := hs
      · exact ⟨p, [0x4B#8], 1024, rfl, ⟨hne, hp⟩, by simp [suffixes]⟩
      · exact ⟨p, [0x4D#8], 1048576, rfl, ⟨hne, hp⟩, by simp [suffixes]⟩

/-- What ParseLit accepts is well formed. -/
theorem wfLiteral_of_parseLit {s : Literal} {f : FieldId} {n : Nat} (h : parseLit s f = .ok n) : wfLiteral s = true := by
  obtain ⟨suf, he, hs⟩ := splitSuffix_eq s
  rw [he]
  exact wfLiteral_append (parseLit_ok h).1 hs

/-- A count that fits is stored exactly (R7: "No rule writes a value that does not fit"). -/
theorem count_toNat {n : Nat} (h : n ≤ maxCount) : (BitVec.ofNat Config.bytecountW n).toNat = n := by
  have : maxCount = 2 ^ Config.bytecountW - 1 := rfl
  rw [BitVec.toNat_ofNat]
  exact Nat.mod_eq_of_lt (by have := Nat.two_pow_pos Config.bytecountW; omega)

/-! ### Renderings -/

/-- `RenderRom(n)` is a digit string with a suffix, and the two denote n (R120). -/
theorem renderRom_split (n : Nat) :
    ∃ d suf m, renderRom n = d ++ suf ∧ Digits d ∧ (suf, m) ∈ suffixes ∧ 0 < m ∧ decValue d * m = n := by
  unfold renderRom
  split
  · rename_i h; subst h
    exact ⟨[0x30#8], [0x4B#8], 1024, rfl, ⟨by simp, by decide⟩, by simp [suffixes], by decide, by decide⟩
  · split
    · exact ⟨decStr (n / 1048576), [0x4D#8], 1048576, rfl, decStr_digits _, by simp [suffixes], by decide, by simp; omega⟩
    · split
      · exact ⟨decStr (n / 1024), [0x4B#8], 1024, rfl, decStr_digits _, by simp [suffixes], by decide, by simp; omega⟩
      · exact ⟨decStr n, [], 1, by simp, decStr_digits _, by simp [suffixes], by decide, by simp⟩

/-- `RenderRam(n)` is a digit string with a suffix, and the two denote n (R121). -/
theorem renderRam_split (n : Nat) :
    ∃ d suf m, renderRam n = d ++ suf ∧ Digits d ∧ (suf, m) ∈ suffixes ∧ 0 < m ∧ decValue d * m = n := by
  unfold renderRam
  split
  · exact ⟨decStr (n / 1024), [0x4B#8], 1024, rfl, decStr_digits _, by simp [suffixes], by decide, by simp; omega⟩
  · exact ⟨decStr n, [], 1, by simp, decStr_digits _, by simp [suffixes], by decide, by simp⟩

/-- A rendered ROM-class count parses back to the count (R123). -/
theorem parseLit_renderRom {n : Nat} (h : n ≤ maxCount) (f : FieldId) : parseLit (renderRom n) f = .ok n := by
  obtain ⟨d, suf, m, he, hd, hs, hm, hv⟩ := renderRom_split n
  rw [he, parseLit_append_ok hd hs hm (by omega), hv]

/-- A rendered RAM-class count parses back to the count (R123). -/
theorem parseLit_renderRam {n : Nat} (h : n ≤ maxCount) (f : FieldId) : parseLit (renderRam n) f = .ok n := by
  obtain ⟨d, suf, m, he, hd, hs, hm, hv⟩ := renderRam_split n
  rw [he, parseLit_append_ok hd hs hm (by omega), hv]

theorem wfLiteral_renderRom (n : Nat) : wfLiteral (renderRom n) = true := by
  obtain ⟨d, suf, m, he, hd, hs, -⟩ := renderRom_split n
  rw [he]
  exact wfLiteral_append hd hs

theorem wfLiteral_renderRam (n : Nat) : wfLiteral (renderRam n) = true := by
  obtain ⟨d, suf, m, he, hd, hs, -⟩ := renderRam_split n
  rw [he]
  exact wfLiteral_append hd hs

/-! ### ROM-class sizes -/

/-- Exponent and multiplier of a count are unique (R103): the odd part and the power of two of a number are. -/
theorem expCount_inj {e e' m m' : Nat} (h : expCount e m = expCount e' m') : e = e' ∧ m = m' := by
  unfold expCount at h
  have key : ∀ {a b x y : Nat}, a < b → 2 ^ a * (2 * x + 1) = 2 ^ b * (2 * y + 1) → False := by
    intro a b x y hab hh
    obtain ⟨k, rfl⟩ := Nat.exists_eq_add_of_lt hab
    have : 2 ^ a * (2 * x + 1) = 2 ^ a * (2 * (2 ^ k * (2 * y + 1))) := by rw [hh]; ring
    have := Nat.eq_of_mul_eq_mul_left (Nat.two_pow_pos a) this
    omega
  rcases Nat.lt_trichotomy e e' with hlt | rfl | hlt
  · exact (key hlt h).elim
  · refine ⟨rfl, ?_⟩
    have := Nat.eq_of_mul_eq_mul_left (Nat.two_pow_pos e) h
    omega
  · exact (key hlt h.symm).elim

/-- The exponent search finds exactly the pair in its range that denotes the count (R102, R103). -/
theorem searchExp_some {n e m : Nat} :
    searchExp n = some (e, m) ↔ e ≤ Config.expEncMax ∧ m ≤ 3 ∧ expCount e m = n := by
  constructor
  · intro h
    obtain ⟨x, hx, h⟩ := List.exists_of_findSome?_eq_some h
    obtain ⟨y, hy, h⟩ := List.exists_of_findSome?_eq_some h
    split at h
    · cases h
      rw [List.mem_range] at hx hy
      exact ⟨by omega, by omega, by assumption⟩
    · cases h
  · rintro ⟨he, hm, hn⟩
    cases hs : searchExp n with
    | none =>
      rw [searchExp, List.findSome?_eq_none_iff] at hs
      have := hs e (List.mem_range.mpr (by omega))
      rw [List.findSome?_eq_none_iff] at this
      have := this m (List.mem_range.mpr (by omega))
      simp [hn] at this
    | some p =>
      obtain ⟨x, y⟩ := p
      obtain ⟨a, ha, hs⟩ := List.exists_of_findSome?_eq_some hs
      obtain ⟨b, hb, hs⟩ := List.exists_of_findSome?_eq_some hs
      split at hs
      · cases hs
        obtain ⟨rfl, rfl⟩ := expCount_inj (hn.trans (by symm; assumption))
        rfl
      · cases hs

/-- The search fails exactly when no pair in its range denotes the count. -/
theorem searchExp_none {n : Nat} :
    searchExp n = none ↔ ∀ e m, e ≤ Config.expEncMax → m ≤ 3 → expCount e m ≠ n := by
  constructor
  · intro h e m he hm hn
    rw [searchExp_some.mpr ⟨he, hm, hn⟩] at h
    cases h
  · intro h
    cases hs : searchExp n with
    | none => rfl
    | some p => exact absurd (searchExp_some.mp hs).2.2 (h _ _ (searchExp_some.mp hs).1 (searchExp_some.mp hs).2.1)

/-- The low byte of the exponent form: exp in bits 7:2, mul in bits 1:0 (R71). -/
theorem expByte_toNat {e m : Nat} (he : e ≤ 63) (hm : m ≤ 3) : (BitVec.ofNat 8 ((e <<< 2) ||| m)).toNat = 4 * e + m := by
  have : (e <<< 2) ||| m = 4 * e + m := by
    rw [← Nat.shiftLeft_add_eq_or_of_lt (by omega : m < 2 ^ 2), Nat.shiftLeft_eq]; omega
  rw [this, BitVec.toNat_ofNat]
  omega

/-- EncRom's linear form (R102). -/
theorem encRom_linear {n unit : Nat} (h : n % (1024 * unit) = 0 ∧ n / (1024 * unit) ≤ Config.linearMax) (f : FieldId) :
    encRom n unit f = .ok ((BitVec.ofNat 12 (n / (1024 * unit))).extractLsb' 0 8, (BitVec.ofNat 12 (n / (1024 * unit))).extractLsb' 8 4) := by
  simp only [encRom, if_pos h]

/-- EncRom's exponent form (R102). -/
theorem encRom_exp {n unit e m : Nat} (h : ¬ (n % (1024 * unit) = 0 ∧ n / (1024 * unit) ≤ Config.linearMax))
    (hs : searchExp n = some (e, m)) (f : FieldId) :
    encRom n unit f = .ok (BitVec.ofNat 8 ((e <<< 2) ||| m), 0xF#4) := by
  simp only [encRom, if_neg h, hs]

/-- EncRom's one error (R102). -/
theorem encRom_none {n unit : Nat} (h : ¬ (n % (1024 * unit) = 0 ∧ n / (1024 * unit) ≤ Config.linearMax))
    (hs : searchExp n = none) (f : FieldId) : encRom n unit f = .error ⟨.invalidRomSize, f, .ofNat n⟩ := by
  simp only [encRom, if_neg h, hs]

/-- A nibble above a byte, as a number (R42). -/
theorem nibble_append_toNat (hi : Nibble) (lo : Byte) : (hi ++ lo).toNat = 256 * hi.toNat + lo.toNat := by
  rw [BitVec.toNat_append, ← Nat.shiftLeft_add_eq_or_of_lt lo.isLt, Nat.shiftLeft_eq]
  omega

/-- Everything EncRom can answer when it succeeds (R102). -/
theorem encRom_ok {n unit : Nat} {f : FieldId} {p : Byte × Nibble} (h : encRom n unit f = .ok p) :
    (n % (1024 * unit) = 0 ∧ n / (1024 * unit) ≤ 0xEFF ∧ p.2 ≠ 0xF#4 ∧ (p.2 ++ p.1).toNat = n / (1024 * unit)) ∨
    (∃ e m, e ≤ Config.expEncMax ∧ m ≤ 3 ∧ expCount e m = n ∧ p.2 = 0xF#4 ∧ p.1.toNat = 4 * e + m) := by
  by_cases hl : n % (1024 * unit) = 0 ∧ n / (1024 * unit) ≤ Config.linearMax
  · rw [encRom_linear hl] at h
    cases h
    have hu : n / (1024 * unit) ≤ 0xEFF := hl.2
    generalize n / (1024 * unit) = u at hu
    have hlo : ((BitVec.ofNat 12 u).extractLsb' 0 8).toNat = u % 256 := by
      simp only [BitVec.extractLsb'_toNat, BitVec.toNat_ofNat, Nat.shiftRight_zero]
      omega
    have hhi : ((BitVec.ofNat 12 u).extractLsb' 8 4).toNat = u / 256 := by
      simp only [BitVec.extractLsb'_toNat, BitVec.toNat_ofNat, Nat.shiftRight_eq_div_pow]
      omega
    refine .inl ⟨hl.1, hu, ?_, ?_⟩
    · intro hf
      have := congrArg BitVec.toNat hf
      rw [hhi] at this
      simp at this
      omega
    · rw [nibble_append_toNat, hlo, hhi]
      omega
  · cases hs : searchExp n with
    | none => rw [encRom_none hl hs] at h; cases h
    | some q =>
      obtain ⟨e, m⟩ := q
      rw [encRom_exp hl hs] at h
      cases h
      obtain ⟨he, hm, hn⟩ := searchExp_some.mp hs
      have he' : e ≤ 59 := he
      exact .inr ⟨e, m, he, hm, hn, rfl, expByte_toNat (by omega) hm⟩

/-- The error of EncRom is InvalidRomSize with the count. -/
theorem encRom_error {n unit : Nat} {f : FieldId} {e : Err} (h : encRom n unit f = .error e) :
    e = ⟨.invalidRomSize, f, .ofNat n⟩ := by
  by_cases hl : n % (1024 * unit) = 0 ∧ n / (1024 * unit) ≤ Config.linearMax
  · rw [encRom_linear hl] at h; cases h
  · cases hs : searchExp n with
    | none => rw [encRom_none hl hs] at h; cases h; rfl
    | some q => rw [encRom_exp hl hs] at h; cases h

/-- DecRom in the linear form (R106). -/
theorem decRom_linear {lo : Byte} {hi : Nibble} (h : hi ≠ 0xF#4) (unit : Nat) (f : FieldId) :
    decRom lo hi unit f = .ok ((hi ++ lo).toNat * 1024 * unit, renderRom ((hi ++ lo).toNat * 1024 * unit)) := by
  simp only [decRom, if_neg h]

theorem expField_toNat (lo : Byte) : (lo.extractLsb' 2 6).toNat = lo.toNat / 4 := by
  have := lo.isLt
  simp only [BitVec.extractLsb'_toNat, Nat.shiftRight_eq_div_pow]
  omega

theorem mulField_toNat (lo : Byte) : (lo.extractLsb' 0 2).toNat = lo.toNat % 4 := by
  simp only [BitVec.extractLsb'_toNat, Nat.shiftRight_eq_div_pow]
  omega

/-- DecRom in the exponent form (R106). -/
theorem decRom_exp (lo : Byte) (unit : Nat) (f : FieldId) :
    decRom lo 0xF#4 unit f =
      if lo.toNat / 4 > Config.expDecMax then .error ⟨.tooLarge, f, .ofNat (lo.toNat / 4)⟩
      else .ok (expCount (lo.toNat / 4) (lo.toNat % 4), renderRom (expCount (lo.toNat / 4) (lo.toNat % 4))) := by
  simp only [decRom, if_true, expField_toNat, mulField_toNat]

/-- A decoded count comes with its rendering. -/
theorem decRom_ok {lo : Byte} {hi : Nibble} {unit : Nat} {f : FieldId} {p : Nat × Literal} (h : decRom lo hi unit f = .ok p) :
    p.2 = renderRom p.1 := by
  by_cases hf : hi = 0xF#4
  · subst hf
    rw [decRom_exp] at h
    split at h <;> cases h
    rfl
  · rw [decRom_linear hf] at h
    cases h
    rfl

/-- Every count DecRom answers fits (R122). -/
theorem decRom_le {lo : Byte} {hi : Nibble} {unit : Nat} {f : FieldId} {p : Nat × Literal} (hu : unit ≤ 16)
    (h : decRom lo hi unit f = .ok p) : p.1 ≤ maxCount := by
  have hmax : maxCount = 2 ^ 64 - 1 := rfl
  by_cases hf : hi = 0xF#4
  · subst hf
    rw [decRom_exp] at h
    split at h
    · cases h
    · cases h
      rename_i hle
      have he : lo.toNat / 4 ≤ 60 := by have : Config.expDecMax = 60 := rfl; omega
      have h1 : 2 ^ (lo.toNat / 4) ≤ 2 ^ 60 := Nat.pow_le_pow_right (by decide) he
      have h2 : 2 * (lo.toNat % 4) + 1 ≤ 7 := by omega
      have := Nat.mul_le_mul h1 h2
      simp only [expCount]
      omega
  · rw [decRom_linear hf] at h
    cases h
    have h1 := (hi ++ lo).isLt
    have h2 : (hi ++ lo).toNat * 1024 * unit ≤ (hi ++ lo).toNat * 1024 * 16 := Nat.mul_le_mul_left _ hu
    simp only at h1 ⊢
    omega

/-- The one error of DecRom. -/
theorem decRom_error {lo : Byte} {hi : Nibble} {unit : Nat} {f : FieldId} {e : Err} (h : decRom lo hi unit f = .error e) :
    hi = 0xF#4 ∧ lo.toNat / 4 > Config.expDecMax ∧ e = ⟨.tooLarge, f, .ofNat (lo.toNat / 4)⟩ := by
  by_cases hf : hi = 0xF#4
  · subst hf
    rw [decRom_exp] at h
    split at h
    · cases h; exact ⟨rfl, by assumption, rfl⟩
    · cases h
  · rw [decRom_linear hf] at h
    cases h

/-- DecRom inverts EncRom (R124). -/
theorem decRom_encRom {n unit : Nat} {f : FieldId} (g : FieldId) {p : Byte × Nibble}
    (h : encRom n unit f = .ok p) : decRom p.1 p.2 unit g = .ok (n, renderRom n) := by
  rcases encRom_ok h with ⟨hm, -, hne, hv⟩ | ⟨e, m, he, hm, hn, hF, hlo⟩
  · have : n / (1024 * unit) * 1024 * unit = n := by
      rw [Nat.mul_assoc]; exact Nat.div_mul_cancel (Nat.dvd_of_mod_eq_zero hm)
    rw [decRom_linear hne, hv, this]
  · have he' : e ≤ 59 := he
    have h1 : p.1.toNat / 4 = e := by omega
    have h2 : p.1.toNat % 4 = m := by omega
    rw [hF, decRom_exp, h1, h2, if_neg (by have : Config.expDecMax = 60 := rfl; omega), hn]

/-! ### RAM-class sizes -/

/-- The shift counts denote sixteen different byte counts (R125). -/
theorem ramCount_inj {c c' : Nibble} (h : ramCount c = ramCount c') : c = c' := by
  revert c c'
  decide

/-- The count search finds exactly the shift counts from 1 to 15 (R109). -/
theorem findCount_some {n k : Nat} (h : (List.range' 1 Config.ramCountMax).find? (fun c => 64 <<< c == n) = some k) :
    1 ≤ k ∧ k ≤ 15 ∧ 64 <<< k = n := by
  have hmem := List.mem_range'_1.mp (List.mem_of_find?_eq_some h)
  have hk := List.find?_some h
  have : Config.ramCountMax = 15 := rfl
  exact ⟨hmem.1, by omega, by simpa using hk⟩

/-- EncRam accepts exactly the byte counts of the shift form (R109, R125). -/
theorem encRam_ok {n : Nat} {f : FieldId} {c : Nibble} : encRam n f = .ok c ↔ n = ramCount c := by
  constructor
  · intro h
    unfold encRam at h
    split at h
    · cases h; assumption
    · split at h
      · rename_i hf
        cases h
        obtain ⟨h1, h2, rfl⟩ := findCount_some hf
        clear hf
        rename_i k _
        interval_cases k <;> rfl
      · cases h
  · rintro rfl
    by_cases h0 : c = 0
    · subst h0; rfl
    · have hne : ramCount c ≠ 0 := fun h => h0 (ramCount_inj (h.trans (by rfl : 0 = ramCount 0)))
      have hfind : ∀ c : Nibble, c ≠ 0 →
          (List.range' 1 Config.ramCountMax).find? (fun k => 64 <<< k == ramCount c) = some c.toNat := by decide
      simp [encRam, hne, hfind c h0]

/-- The error of EncRam is InvalidRamSize with the count (R109). -/
theorem encRam_error {n : Nat} {f : FieldId} {e : Err} (h : encRam n f = .error e) : e = ⟨.invalidRamSize, f, .ofNat n⟩ := by
  unfold encRam at h
  repeat' split at h
  all_goals cases h
  rfl

theorem ramCount_le (c : Nibble) : ramCount c ≤ maxCount := by
  have : ramCount c ≤ 2097152 := by revert c; decide
  have h : maxCount = 2 ^ 64 - 1 := rfl
  omega

/-- A count with a ROM-class form is a byte count (R122). -/
theorem encRom_le {n u f p} (hu : u ≤ 16) (h : encRom n u f = .ok p) : n ≤ maxCount := by
  have := decRom_encRom f h
  exact decRom_le hu this

/-- DecRom fails exactly in the exponent form with an exponent above EXP_DEC_MAX (R106). -/
theorem decRom_split (lo : Byte) (hi : Nibble) (u : Nat) (f : FieldId) :
    (hi.toNat = 15 ∧ Config.expDecMax < lo.toNat / 4 → decRom lo hi u f = .error ⟨.tooLarge, f, .ofNat (lo.toNat / 4)⟩) ∧
    (¬ (hi.toNat = 15 ∧ Config.expDecMax < lo.toNat / 4) → ∃ p, decRom lo hi u f = .ok p) := by
  by_cases hf : hi = 0xF#4
  · subst hf
    constructor
    · rintro ⟨-, h⟩; rw [decRom_exp, if_pos h]
    · intro h; rw [decRom_exp, if_neg (fun h' => h ⟨rfl, h'⟩)]; exact ⟨_, rfl⟩
  · constructor
    · rintro ⟨h, -⟩; exact absurd (BitVec.eq_of_toNat_eq h) hf
    · intro _; rw [decRom_linear hf]; exact ⟨_, rfl⟩

end Sys2Proof.Machine
end

