-- ==== Sys2Proof/Laws/HeaderCodec.lean ====
section
/-!
SUPPORT. What the functions of the Header Codec can answer: codes and members, the packed buffer, the unpacked record.
-/

namespace Sys2Proof.Machine

/-! ### Codes and members -/

@[simp] theorem console_ofCode_code (c : Console) : Console.ofCode c.code = c := by cases c <;> rfl

@[simp] theorem console_code_ofCode (k : Nibble) : (Console.ofCode k).code = k := by revert k; decide

@[simp] theorem timing_ofCode_code (t : Timing) : Timing.ofCode t.code = t := by cases t <;> rfl

@[simp] theorem timing_code_ofCode (k : BitVec 2) : (Timing.ofCode k).code = k := by revert k; decide

@[simp] theorem vsPpu_ofCode_code (p : VsPpu) : VsPpu.ofCode p.code = p := by cases p <;> rfl

@[simp] theorem vsPpu_code_ofCode (k : Nibble) : (VsPpu.ofCode k).code = k := by revert k; decide

@[simp] theorem vsHardware_ofCode_code (h : VsHardware) : VsHardware.ofCode h.code = some h := by cases h <;> rfl

/-- A hardware code of a member is at most 6, and the other codes name none (R68). -/
theorem vsHardware_ofCode_some {k : Nibble} {h : VsHardware} : VsHardware.ofCode k = some h ↔ h.code = k := by
  revert k h
  have : ∀ k : Nibble, ∀ h ∈ vsHardwareTable, VsHardware.ofCode k = some h ↔ h.code = k := by decide
  intro k h
  exact this k h (by cases h <;> decide)

theorem vsHardware_ofCode_none {k : Nibble} : VsHardware.ofCode k = none ↔ 6 < k.toNat := by revert k; decide

/-! ### ENCODE -/

@[simp] theorem byteAt_getElem (b : Buffer) (i : Nat) (h : i < 16) : b[i] = byteAt b ⟨i, h⟩ := rfl

theorem packConsole_ne (r : Record) (wb : Buffer) {i : Fin 16} (h7 : i ≠ 7) (h13 : i ≠ 13) :
    byteAt (packConsole r wb) i = byteAt wb i := by
  unfold packConsole
  dsimp only
  split <;> simp [h7.symm, h13.symm]

theorem packConsole_seven (r : Record) (wb : Buffer) : byteAt (packConsole r wb) 7 =
    byteAt wb 7 ||| (if (consoleOf r).code.toNat ≤ 2 then inLow (consoleOf r).code <<< 2 else 0b11#8 <<< 2) := by
  unfold packConsole
  dsimp only
  split <;> simp

theorem packConsole_thirteen (r : Record) (wb : Buffer) : byteAt (packConsole r wb) 13 =
    byteAt wb 13 ||| (if (consoleOf r).code.toNat ≤ 2 then 0 else inLow (consoleOf r).code) := by
  unfold packConsole
  dsimp only
  split <;> simp

theorem packVs_ne (r : Record) (wb : Buffer) {i : Fin 16} (h13 : i ≠ 13) : byteAt (packVs r wb) i = byteAt wb i := by
  unfold packVs
  split <;> simp [h13.symm]

theorem packVs_thirteen (r : Record) (wb : Buffer) : byteAt (packVs r wb) 13 = byteAt wb 13 |||
    (if consoleOf r = .vsSystem then
      inLow (r.vsPpu.getD .any).code ||| inHigh (r.vsHardware.getD .unisystemNormal).code else 0) := by
  unfold packVs
  split <;> simp

/-- The seeded work buffer: signature, marker, zeros (R141). -/
theorem byteAt_initWb (i : Fin 16) : byteAt initWb i =
    if h : i.val < 4 then Config.signature[i.val] else if i = 7 then 0b10 else 0 := by
  revert i; decide

/-- Everything ENCODE's packing needs to succeed, and the buffer it then gives, in the order of its steps (R140). -/
theorem encodeRecord_ok {r : Record} {buf : Buffer} : encodeRecord r = .ok buf ↔
    ∃ p c a b d e, romField r.prgRom Config.prgUnit .prgRom = .ok p ∧ romField r.chrRom Config.chrUnit .chrRom = .ok c ∧
      r.mapper.toNat ≤ 0xFFF ∧ (submapperOf r).toNat ≤ 0xF ∧
      ramField r.prgRam .prgRam = .ok a ∧ ramField r.prgNvram .prgNvram = .ok b ∧
      ramField r.chrRam .chrRam = .ok d ∧ ramField r.chrNvram .chrNvram = .ok e ∧
      packVs r (packTiming r (orAt (orAt (packSubmapper r (packConsole r (packFlags r (packMapper r
        (orAt (orAt (orAt initWb 4 p.1) 5 c.1) 9 (inLow p.2 ||| inHigh c.2)))))) 10 (inLow a ||| inHigh b)) 11
        (inLow d ||| inHigh e))) = buf := by
  have hm : ∀ u, checkMapper r = .ok u ↔ r.mapper.toNat ≤ 0xFFF := by
    intro u; unfold checkMapper; split <;> simp <;> omega
  have hs : ∀ u, checkSubmapper r = .ok u ↔ (submapperOf r).toNat ≤ 0xF := by
    intro u; unfold checkSubmapper; split <;> simp <;> omega
  simp only [encodeRecord, packRomSizes, packRamSizes, bind_eq_ok, pure, Except.pure, Except.ok.injEq]
  constructor
  · rintro ⟨wb, ⟨p, hp, c, hc, rfl⟩, u, hu, v, hv, wb', ⟨a, ha, b, hb, d, hd, e, he, rfl⟩, rfl⟩
    exact ⟨p, c, a, b, d, e, hp, hc, (hm _).mp hu, (hs _).mp hv, ha, hb, hd, he, rfl⟩
  · rintro ⟨p, c, a, b, d, e, hp, hc, hu, hv, ha, hb, hd, he, rfl⟩
    exact ⟨_, ⟨p, hp, c, hc, rfl⟩, (), (hm _).mpr hu, (), (hs _).mpr hv, _, ⟨a, ha, b, hb, d, hd, e, he, rfl⟩, rfl⟩

/-- The buffer the packing steps build. -/
def packed (r : Record) (p c : Byte × Nibble) (a b d e : Nibble) : Buffer :=
  packVs r (packTiming r (orAt (orAt (packSubmapper r (packConsole r (packFlags r (packMapper r
    (orAt (orAt (orAt initWb 4 p.1) 5 c.1) 9 (inLow p.2 ||| inHigh c.2)))))) 10 (inLow a ||| inHigh b)) 11
    (inLow d ||| inHigh e)))

/-- The bytes of the buffer the packing steps build; a step that writes no bit of a byte is gone from its equation. -/
theorem byteAt_packed (r : Record) (p c : Byte × Nibble) (a b d e : Nibble) :
    (∀ i : Fin 4, byteAt (packed r p c a b d e) ⟨i.val, by omega⟩ = Config.signature[i]) ∧
    byteAt (packed r p c a b d e) 4 = p.1 ∧
    byteAt (packed r p c a b d e) 5 = c.1 ∧
    byteAt (packed r p c a b d e) 6 = inHigh (r.mapper.extractLsb' 0 4) |||
      (bitIf (r.mirroring.getD .vertical = .horizontal) 0 ||| bitIf (r.battery.getD false) 1 |||
        bitIf (r.trainer.getD false) 2 ||| bitIf (r.mirroring.getD .vertical = .fourScreens) 3) ∧
    byteAt (packed r p c a b d e) 7 = 0b10 ||| inHigh (r.mapper.extractLsb' 4 4) |||
      (if (consoleOf r).code.toNat ≤ 2 then inLow (consoleOf r).code <<< 2 else 0b11#8 <<< 2) ∧
    byteAt (packed r p c a b d e) 8 = inLow (r.mapper.extractLsb' 8 4) ||| inHigh ((submapperOf r).extractLsb' 0 4) ∧
    byteAt (packed r p c a b d e) 9 = inLow p.2 ||| inHigh c.2 ∧
    byteAt (packed r p c a b d e) 10 = inLow a ||| inHigh b ∧
    byteAt (packed r p c a b d e) 11 = inLow d ||| inHigh e ∧
    byteAt (packed r p c a b d e) 12 = (r.timing.getD .rp2c02).code.zeroExtend 8 ∧
    byteAt (packed r p c a b d e) 13 = (if (consoleOf r).code.toNat ≤ 2 then 0 else inLow (consoleOf r).code) |||
      (if consoleOf r = .vsSystem then
        inLow (r.vsPpu.getD .any).code ||| inHigh (r.vsHardware.getD .unisystemNormal).code else 0) ∧
    byteAt (packed r p c a b d e) 14 = 0 ∧
    byteAt (packed r p c a b d e) 15 = 0 := by
  refine ⟨?_, ?_, ?_, ?_, ?_, ?_, ?_, ?_, ?_, ?_, ?_, ?_, ?_⟩
  · intro i
    fin_cases i <;>
      simp [packed, packVs_ne, packTiming, packSubmapper, packConsole_ne, packFlags, packMapper, byteAt_initWb]
  all_goals
    simp [packed, packVs_ne, packVs_thirteen, packTiming, packSubmapper, packConsole_ne, packConsole_seven,
      packConsole_thirteen, packFlags, packMapper, byteAt_initWb]

/-! ### Fields of a record and of a buffer -/

/-- Everything a ROM-class field of a record can give (R150). -/
theorem romField_ok {s u f p} : romField s u f = .ok p ↔ ∃ n, parseLit s f = .ok n ∧ encRom n u f = .ok p := by
  simp only [romField, bind_eq_ok]

/-- Why a ROM-class field of a record can fail. -/
theorem romField_error {s u f e} (h : romField s u f = .error e) :
    e.kind ∈ [ErrKind.invalidRomSize, .invalidLiteral, .overflow] ∧ e.field = f ∧ e.detail ≠ .noDetail := by
  unfold romField at h
  cases hp : parseLit s f with
  | error e' =>
    rw [hp] at h; cases h
    rcases parseLit_error hp with rfl | rfl <;> simp
  | ok n =>
    rw [hp] at h; simp at h
    rw [encRom_error h]; simp [Detail.ofNat]

/-- Why a RAM-class field of a record can fail. -/
theorem ramField_error {x f e} (h : ramField x f = .error e) :
    e.kind ∈ [ErrKind.invalidRamSize, .invalidLiteral, .overflow] ∧ e.field = f ∧ e.detail ≠ .noDetail := by
  unfold ramField at h
  split at h
  · cases h
  rename_i v
  cases hp : parseLit v f with
  | error e' =>
    rw [hp] at h; cases h
    rcases parseLit_error hp with rfl | rfl <;> simp
  | ok n =>
    rw [hp] at h; simp at h
    rw [encRam_error h]; simp [Detail.ofNat]

/-- A rendered shift count is that shift count again (R125). -/
theorem ramField_render (c : Nibble) (f : FieldId) : ramField (some (renderRam (ramCount c))) f = .ok c := by
  simp only [ramField, bind_eq_ok]
  exact ⟨_, parseLit_renderRam (ramCount_le c) f, encRam_ok.mpr rfl⟩

theorem console_code_inj {c c' : Console} (h : c.code = c'.code) : c = c' := by
  have := congrArg Console.ofCode h; simpa using this

/-- The format marker as a number. -/
theorem marker_num (b : Buffer) : (markerOf b).toNat = b[7].toNat % 4 := by
  unfold markerOf
  rw [BitVec.extractLsb'_toNat]; simp

/-- The mapper as a number (R164). -/
theorem mapper_num (b : Buffer) : (unpackMapper b).toNat = b[6].toNat / 16 + 16 * (b[7].toNat / 16) + 256 * (b[8].toNat % 16) := by
  have : ∀ x y z : Nibble, (x ++ y ++ z).toNat = z.toNat + 16 * y.toNat + 256 * x.toNat := by
    intro x y z
    rw [BitVec.toNat_append, BitVec.toNat_append, ← Nat.shiftLeft_add_eq_or_of_lt z.isLt, ← Nat.shiftLeft_add_eq_or_of_lt y.isLt]
    simp only [Nat.shiftLeft_eq]; omega
  unfold unpackMapper
  rw [BitVec.toNat_setWidth, this, highNibble_toNat, highNibble_toNat, lowNibble_toNat]
  have h6 := (byteAt b 6).isLt
  have h7 := (byteAt b 7).isLt
  show _ % 2^64 = (byteAt b 6).toNat / 16 + 16 * ((byteAt b 7).toNat / 16) + 256 * ((byteAt b 8).toNat % 16)
  omega

/-- The flag bits of byte 6 as numbers. -/
theorem lsb_num (v : Byte) : v.getLsbD 0 = decide (v.toNat % 2 = 1) ∧ v.getLsbD 1 = decide (v.toNat / 2 % 2 = 1) ∧
   v.getLsbD 2 = decide (v.toNat / 4 % 2 = 1) ∧ v.getLsbD 3 = decide (v.toNat / 8 % 2 = 1) := by revert v; decide

/-- The decoded console's code as a number (R167). -/
theorem console_number (b : Buffer) : (unpackConsole b).code.toNat = consoleNumber b := by
  have e : (consoleCodeOf b).toNat = b[7].toNat / 4 % 4 := by
    unfold consoleCodeOf
    simp [BitVec.extractLsb'_toNat, Nat.shiftRight_eq_div_pow]
  unfold unpackConsole consoleNumber
  by_cases h : consoleCodeOf b = 0b11#2
  · have h' : b[7].toNat / 4 % 4 = 3 := by rw [← e, h]; rfl
    rw [if_pos h, if_pos h']
    simp [lowNibble_toNat]
  · have h' : b[7].toNat / 4 % 4 ≠ 3 := by
      rw [← e]; intro h'; exact h (BitVec.eq_of_toNat_eq h')
    rw [if_neg h, if_neg h', console_code_ofCode, ← e]
    have := (consoleCodeOf b).isLt
    simp; omega

theorem unpackConsole_vs (b : Buffer) : unpackConsole b = .vsSystem ↔ consoleNumber b = 1 := by
  rw [← console_number]
  constructor
  · intro h; rw [h]; rfl
  · intro h; apply console_code_inj; exact BitVec.eq_of_toNat_eq h

theorem checkSignature_ok {b : Buffer} (h : SignatureOk b) : checkSignature b = .ok () := if_pos h

/-- What CheckSignature answers otherwise (R161). -/
theorem checkSignature_bad {b : Buffer} (h : ¬ SignatureOk b) : checkSignature b =
    .error ⟨.badSignature, .signature, .num (BitVec.ofNat 64 (b[0].toNat + 256 * b[1].toNat + 65536 * b[2].toNat + 16777216 * b[3].toNat))⟩ := by
  refine (if_neg h).trans ?_
  simp [memRead, Detail.ofNat]
  congr 1; omega

theorem checkMarker_ok {b : Buffer} (h : b[7].toNat % 4 = 2) : checkMarker b = .ok () :=
  if_pos (BitVec.eq_of_toNat_eq (by rw [marker_num, h]; rfl))

/-- What CheckMarker answers otherwise (R162). -/
theorem checkMarker_bad {b : Buffer} (h : b[7].toNat % 4 ≠ 2) : checkMarker b =
    .error ⟨.badFormatMarker, .formatMarker, .num (BitVec.ofNat 64 (b[7].toNat % 4))⟩ := by
  refine (if_neg (fun h' => h ?_)).trans (by rw [marker_num]; rfl)
  rw [← marker_num, h']; rfl

/-- Everything DECODE's unpacking needs to succeed, and the record it then gives (R160). -/
theorem decodeBuffer_ok {b : Buffer} {q : Record} : decodeBuffer b = .ok q ↔
    SignatureOk b ∧ markerOf b = 0b10#2 ∧ ∃ pn ps cn cs ppu hw,
      decRom (byteAt b 4) (lowNibble (byteAt b 9)) Config.prgUnit .prgRom = .ok (pn, ps) ∧
      decRom (byteAt b 5) (highNibble (byteAt b 9)) Config.chrUnit .chrRom = .ok (cn, cs) ∧
      unpackVs b (unpackConsole b) = .ok (ppu, hw) ∧
      q = { mapper := unpackMapper b, submapper := some (unpackSubmapper b), mirroring := some (unpackMirroring b),
            battery := some (unpackBattery b), trainer := some (unpackTrainer b), console := some (unpackConsole b),
            timing := some (unpackTiming b), vsPpu := ppu, vsHardware := hw, prgRom := ps,
            prgRam := some (unpackRam (lowNibble (byteAt b 10))), prgNvram := some (unpackRam (highNibble (byteAt b 10))),
            chrRom := cs, chrRam := some (unpackRam (lowNibble (byteAt b 11))), chrNvram := some (unpackRam (highNibble (byteAt b 11))) } := by
  have h1 : ∀ u, checkSignature b = .ok u ↔ SignatureOk b := by
    intro u
    by_cases h : SignatureOk b
    · rw [checkSignature_ok h]; exact ⟨fun _ => h, fun _ => rfl⟩
    · rw [checkSignature_bad h]; constructor
      · intro h'; cases h'
      · intro h'; exact absurd h' h
  have h2 : ∀ u, checkMarker b = .ok u ↔ markerOf b = 0b10#2 := by
    intro u; unfold checkMarker
    by_cases h : markerOf b = 0b10#2
    · rw [if_pos h]; exact ⟨fun _ => h, fun _ => rfl⟩
    · rw [if_neg h]; constructor
      · intro h'; cases h'
      · intro h'; exact absurd h' h
  simp only [decodeBuffer, bind_eq_ok, pure, Except.pure, Except.ok.injEq]
  constructor
  · rintro ⟨u, hu, v, hv, ⟨pn, ps⟩, hp, ⟨cn, cs⟩, hc, ⟨ppu, hw⟩, hvs, rfl⟩
    exact ⟨(h1 u).mp hu, (h2 v).mp hv, pn, ps, cn, cs, ppu, hw, hp, hc, hvs, rfl⟩
  · rintro ⟨hu, hv, pn, ps, cn, cs, ppu, hw, hp, hc, hvs, rfl⟩
    exact ⟨(), (h1 _).mpr hu, (), (h2 _).mpr hv, _, hp, _, hc, _, hvs, rfl⟩

/-- Everything the variant gate can answer when it succeeds (R169). -/
theorem unpackVs_ok {b con ppu hw} (h : unpackVs b con = .ok (ppu, hw)) :
   (con = .vsSystem ∧ ppu = some (.ofCode (lowNibble (byteAt b 13))) ∧ ∃ x, hw = some x ∧ x.code = highNibble (byteAt b 13)) ∨
   (con ≠ .vsSystem ∧ ppu = none ∧ hw = none) := by
  unfold unpackVs at h
  split at h
  · split at h
    · rename_i hc _ _ hx; cases h; exact .inl ⟨hc, rfl, _, rfl, vsHardware_ofCode_some.mp hx⟩
    · cases h
  · rename_i hc; cases h; exact .inr ⟨hc, rfl, rfl⟩

theorem nib_or (x y : Nibble) : lowNibble (inLow x ||| inHigh y) = x ∧ highNibble (inLow x ||| inHigh y) = y := by revert x y; decide

end Sys2Proof.Machine
end

