-- ==== Sys2Proof/Laws/Commands.lean ====
section
/-!
SUPPORT. What a command and a step can do, said once: every command is `complete` of one computation on its inputs, and
every step is one action of the host.
-/

namespace Sys2Proof.Machine

/-- What a command writes when it succeeds: its own outputs, WB only for ENCODE, and nothing else. -/
structure Writer (i : Instr) (w : State → State) : Prop where
  frame : ∀ s, CommandFrame s (w s)
  freeIdx : ∀ s, (w s).freeIdx = s.freeIdx
  wb : i ≠ .encode → ∀ s, (w s).wb = s.wb
  outputs : ∀ s o, o ∉ writes i → (w s).output o = s.output o
  written : ∀ s o, o ∈ writes i → ((w s).output o).isSome

/-- The computation a command does on its inputs, and what it writes; `none` when an input is unset. -/
def result (i : Instr) (s : State) : Option (Except Err (State → State)) :=
  match i with
  | .encode => s.inRec.map fun r => (encodeRecord r).map putBuffer
  | .decode => s.inBuf.map fun b => (decodeBuffer b).map putRecord
  | .parseSize => s.inLit.map fun l => (parseLit l .none).map putCount
  | .encRomSizePrg => s.inCount.map fun n => (encRom n.toNat Config.prgUnit .none).map putLoHi
  | .encRomSizeChr => s.inCount.map fun n => (encRom n.toNat Config.chrUnit .none).map putLoHi
  | .decRomSizePrg => s.inLo.bind fun lo => s.inHi.map fun hi => (decRom lo hi Config.prgUnit .none).map putCountLit
  | .decRomSizeChr => s.inLo.bind fun lo => s.inHi.map fun hi => (decRom lo hi Config.chrUnit .none).map putCountLit
  | .encRamSize => s.inCount.map fun n => (encRam n.toNat .none).map putCode
  | .decRamSize => s.inCode.map fun c => .ok (putCountLit (decRam c))

/-- A command whose inputs are set completes its computation. -/
theorem exec_of_result {i : Instr} {s : State} {x : Except Err (State → State)} (h : result i s = some x) :
    exec i s = complete x s := by
  cases i <;> simp only [result, Option.map_eq_some_iff, Option.bind_eq_some_iff] at h
  case decRomSizePrg | decRomSizeChr =>
    obtain ⟨lo, hlo, hi, hhi, rfl⟩ := h
    simp [exec, execDecRomSizePrg, execDecRomSizeChr, decRomCommand, hlo, hhi]
  all_goals
    obtain ⟨v, hv, rfl⟩ := h
    simp [exec, execEncode, execDecode, execParseSize, execEncRomSizePrg, execEncRomSizeChr, encRomCommand,
      execEncRamSize, execDecRamSize, hv]

/-- A command with an unset input faults on such an input. -/
theorem exec_of_unset {i : Instr} {s : State} (h : result i s = none) :
    ∃ r ∈ reads i, s.input r = none ∧ exec i s = .fault (.unsetInput r) := by
  cases i <;> simp only [result, Option.map_eq_none_iff, Option.bind_eq_none_iff] at h
  case decRomSizePrg | decRomSizeChr =>
    cases hlo : s.inLo with
    | none => exact ⟨.inLo, by simp [reads], by simp [State.input, hlo],
        by simp [exec, execDecRomSizePrg, execDecRomSizeChr, decRomCommand, hlo]⟩
    | some lo =>
      have hhi : s.inHi = none := h lo hlo
      exact ⟨.inHi, by simp [reads], by simp [State.input, hhi],
        by simp [exec, execDecRomSizePrg, execDecRomSizeChr, decRomCommand, hlo, hhi]⟩
  all_goals
    exact ⟨_, List.mem_singleton.mpr rfl, by simp [State.input, h],
      by simp [exec, execEncode, execDecode, execParseSize, execEncRomSizePrg, execEncRomSizeChr, encRomCommand,
        execEncRamSize, execDecRamSize, h]⟩

/-- The computation is there exactly when every input the command reads is set. -/
theorem result_isSome (i : Instr) (s : State) : (result i s).isSome ↔ ∀ r ∈ reads i, s.input r ≠ none := by
  cases i <;> simp [result, reads, State.input, Option.isSome_iff_ne_none]
  all_goals exact fun _ => Option.ne_none_iff_exists'.symm

/-- The computation depends on the inputs the command reads alone. -/
theorem result_congr {i : Instr} {s s' : State} (h : ∀ r ∈ reads i, s'.input r = s.input r) : result i s' = result i s := by
  have inj : ∀ {α : Type} {f : α → RegValue} {a b : Option α}, (∀ x y, f x = f y → x = y) → a.map f = b.map f → a = b :=
    fun hf hab => Option.map_injective hf hab
  cases i <;> simp only [reads, List.mem_cons, List.not_mem_nil, or_false, forall_eq_or_imp, forall_eq, State.input] at h
  case decRomSizePrg | decRomSizeChr =>
    obtain ⟨h1, h2⟩ := h
    have h1 := inj (fun _ _ e => RegValue.byte.inj e) h1
    have h2 := inj (fun _ _ e => RegValue.nibble.inj e) h2
    simp only [result, h1, h2]
  case encode => simp only [result, inj (fun _ _ e => RegValue.record.inj e) h]
  case decode => simp only [result, inj (fun _ _ e => RegValue.buffer.inj e) h]
  case parseSize => simp only [result, inj (fun _ _ e => RegValue.literal.inj e) h]
  case decRamSize => simp only [result, inj (fun _ _ e => RegValue.nibble.inj e) h]
  all_goals simp only [result, inj (fun _ _ e => RegValue.count.inj e) h]

theorem writer_putBuffer (b : Buffer) : Writer .encode (putBuffer b) where
  frame _ := ⟨⟨rfl, rfl, rfl, rfl, rfl, rfl, rfl⟩, rfl, rfl⟩
  freeIdx _ := rfl
  wb h := absurd rfl h
  outputs _ o h := by cases o <;> first | rfl | exact absurd (by decide) h
  written _ o h := by cases o <;> first | rfl | exact absurd h (by decide)

theorem writer_putRecord (r : Record) : Writer .decode (putRecord r) where
  frame _ := ⟨⟨rfl, rfl, rfl, rfl, rfl, rfl, rfl⟩, rfl, rfl⟩
  freeIdx _ := rfl
  wb _ _ := rfl
  outputs _ o h := by cases o <;> first | rfl | exact absurd (by decide) h
  written _ o h := by cases o <;> first | rfl | exact absurd h (by decide)

theorem writer_putCount {i : Instr} (hi : writes i = [.outCount]) (n : Nat) : Writer i (putCount n) where
  frame _ := ⟨⟨rfl, rfl, rfl, rfl, rfl, rfl, rfl⟩, rfl, rfl⟩
  freeIdx _ := rfl
  wb _ _ := rfl
  outputs _ o h := by rw [hi] at h; cases o <;> first | rfl | exact absurd (by decide) h
  written _ o h := by rw [hi] at h; cases o <;> first | rfl | exact absurd h (by decide)

theorem writer_putLoHi {i : Instr} (hi : writes i = [.outLo, .outHi]) (p : Byte × Nibble) : Writer i (putLoHi p) where
  frame _ := ⟨⟨rfl, rfl, rfl, rfl, rfl, rfl, rfl⟩, rfl, rfl⟩
  freeIdx _ := rfl
  wb _ _ := rfl
  outputs _ o h := by rw [hi] at h; cases o <;> first | rfl | exact absurd (by decide) h
  written _ o h := by rw [hi] at h; cases o <;> first | rfl | exact absurd h (by decide)

theorem writer_putCode {i : Instr} (hi : writes i = [.outCode]) (c : Nibble) : Writer i (putCode c) where
  frame _ := ⟨⟨rfl, rfl, rfl, rfl, rfl, rfl, rfl⟩, rfl, rfl⟩
  freeIdx _ := rfl
  wb _ _ := rfl
  outputs _ o h := by rw [hi] at h; cases o <;> first | rfl | exact absurd (by decide) h
  written _ o h := by rw [hi] at h; cases o <;> first | rfl | exact absurd h (by decide)

theorem writer_putCountLit {i : Instr} (hi : writes i = [.outCount, .outLit]) (p : Nat × Literal) : Writer i (putCountLit p) where
  frame _ := ⟨⟨rfl, rfl, rfl, rfl, rfl, rfl, rfl⟩, rfl, rfl⟩
  freeIdx _ := rfl
  wb _ _ := rfl
  outputs _ o h := by rw [hi] at h; cases o <;> first | rfl | exact absurd (by decide) h
  written _ o h := by rw [hi] at h; cases o <;> first | rfl | exact absurd h (by decide)

/-- What a successful computation writes. -/
theorem result_writer {i : Instr} {s : State} {w : State → State} (h : result i s = some (.ok w)) : Writer i w := by
  have lift : ∀ {α : Type} {x : Except Err α} {f : α → State → State}, x.map f = .ok w → ∃ a, f a = w := by
    intro α x f hx
    cases x with
    | ok a => exact ⟨a, Except.ok.inj hx⟩
    | error e => cases hx
  cases i <;> simp only [result, Option.map_eq_some_iff, Option.bind_eq_some_iff] at h
  case decRomSizePrg | decRomSizeChr =>
    obtain ⟨lo, -, hi, -, hw⟩ := h
    obtain ⟨p, rfl⟩ := lift hw
    exact writer_putCountLit rfl p
  case decRamSize =>
    obtain ⟨c, -, hw⟩ := h
    obtain rfl := Except.ok.inj hw
    exact writer_putCountLit rfl _
  all_goals
    obtain ⟨v, -, hw⟩ := h
    obtain ⟨p, rfl⟩ := lift hw
    first
      | exact writer_putBuffer p
      | exact writer_putRecord p
      | exact writer_putCount rfl p
      | exact writer_putLoHi rfl p
      | exact writer_putCode rfl p

/-- Everything a command can do when it answers a next state. -/
theorem exec_next {i : Instr} {s t : State} (h : exec i s = .next t) :
    (∃ w, result i s = some (.ok w) ∧ t = succeed (w (clearOutputs s))) ∨
    (∃ e, result i s = some (.error e) ∧ t = raise e (clearOutputs s)) := by
  cases hr : result i s with
  | none =>
    obtain ⟨r, -, -, hf⟩ := exec_of_unset hr
    rw [hf] at h
    cases h
  | some x =>
    rw [exec_of_result hr] at h
    rcases complete_cases h with ⟨w, rfl, ht⟩ | ⟨e, rfl, ht⟩
    · exact .inl ⟨w, rfl, ht⟩
    · exact .inr ⟨e, rfl, ht⟩

/-- A command answers a next state or faults; it is never refused. -/
theorem exec_next_or_fault (i : Instr) (s : State) :
    (∃ t, exec i s = .next t) ∨ ∃ r ∈ reads i, s.input r = none ∧ exec i s = .fault (.unsetInput r) := by
  cases hr : result i s with
  | none => exact .inr (exec_of_unset hr)
  | some x =>
    rw [exec_of_result hr]
    exact .inl (complete_next x s)

/-- Everything a step can do when it answers a next state. -/
theorem step_next {s t : State} (h : step s = .next t) :
    (s.pending = [] ∧ t = s) ∨
    (∃ w rest, s.pending = .setInput w :: rest ∧ t = writeInput w { s with pending := rest }) ∨
    (∃ c rest, s.pending = .setCmd c :: rest ∧ runCommand c { s with pending := rest } = .next t) ∨
    (∃ r rest, s.pending = .setReadOnly r :: rest ∧ t = { s with pending := rest }) ∨
    (∃ r rest v, s.pending = .read r :: rest ∧ State.readReg { s with pending := rest } r = .ok v ∧ t = { s with pending := rest }) ∨
    (∃ rest, s.pending = .reset :: rest ∧ t = resetBlock { s with pending := rest }) := by
  unfold step hostStep at h
  split at h
  · rename_i hp
    cases h
    exact .inl ⟨hp, rfl⟩
  · rename_i a rest hp
    cases a with
    | setInput w => cases h; exact .inr (.inl ⟨w, rest, hp, rfl⟩)
    | setCmd c => exact .inr (.inr (.inl ⟨c, rest, hp, h⟩))
    | setReadOnly r => cases h; exact .inr (.inr (.inr (.inl ⟨r, rest, hp, rfl⟩)))
    | read r =>
      simp only [hostAct] at h
      split at h
      · rename_i v hv
        cases h
        exact .inr (.inr (.inr (.inr (.inl ⟨r, rest, v, hp, hv, rfl⟩))))
      · cases h
    | reset => cases h; exact .inr (.inr (.inr (.inr (.inr ⟨rest, hp, rfl⟩))))

/-- Everything a CMD write can do: a decoded command runs, any other value raises IllegalCommand. -/
theorem runCommand_cases (c : Byte) (s : State) :
    (∃ i, Sys2Proof.decode c = .ok i ∧ runCommand c s = exec i { s with cmd := c }) ∨
    ((∀ i, Sys2Proof.decode c ≠ .ok i) ∧
      runCommand c s = .next (raise (illegalErr c) (clearOutputs { s with cmd := c }))) := by
  have hd : Sys2Proof.decode c = .error (.illegalCommand c) ∨ ∃ i, Sys2Proof.decode c = .ok i := by
    unfold Sys2Proof.decode
    split
    · exact .inr ⟨_, rfl⟩
    · exact .inl rfl
  rcases hd with hd | ⟨i, hd⟩
  · exact .inr ⟨fun i h => by (rw [hd] at h; cases h), by simp [runCommand, hd]⟩
  · exact .inl ⟨i, hd, by simp [runCommand, hd]⟩

end Sys2Proof.Machine
end

