-- ==== Sys2Proof/Laws/PerInstr.lean ====
section
/-!
SUPPORT. Statements made once per instruction: the word of each command is well formed, decodes to it, and is the only
word that does.
-/

namespace Sys2Proof.Laws.RoundTrip

/-- The command is well formed, its word passes the field conditions of R50, decodes to the command, and is the only word
that does. -/
def Statement (i : Instr) : Prop :=
  i.wf = true ∧ wfWord (encode i) = true ∧ decode (encode i) = .ok i ∧ ∀ c, decode c = .ok i → c = encode i

theorem encode : Statement .encode := by unfold Statement; decide

theorem decode : Statement .decode := by unfold Statement; decide

theorem parseSize : Statement .parseSize := by unfold Statement; decide

theorem encRomSizePrg : Statement .encRomSizePrg := by unfold Statement; decide

theorem encRomSizeChr : Statement .encRomSizeChr := by unfold Statement; decide

theorem decRomSizePrg : Statement .decRomSizePrg := by unfold Statement; decide

theorem decRomSizeChr : Statement .decRomSizeChr := by unfold Statement; decide

theorem encRamSize : Statement .encRamSize := by unfold Statement; decide

theorem decRamSize : Statement .decRamSize := by unfold Statement; decide

end Sys2Proof.Laws.RoundTrip
end

