-- ==== Sys2Proof/Tests/Slice0.lean ====
section
/-!
SUPPORT. Tests of the model against the spec's own words and vectors (30_encoding.md rules R50 to R52 and R73,
95_test_vectors.md), and for every statement with hypotheses a witness that meets them.
-/

namespace Sys2Proof.Tests

open Sys2Proof.Machine

/-! ### Helpers -/

/-- A literal from its characters. -/
def txt (cs : List Char) : Literal := cs.map fun c => BitVec.ofNat 8 c.toNat

/-- A field of the next state, if the outcome is one. -/
def get {α : Type} (f : State → α) (o : Host.Outcome State Fault Refusal) : Option α :=
  match o with
  | .next t => some (f t)
  | .fault _ => none
  | .refused _ => none

/-- STATUS and ERR_DETAIL. -/
def ends (t : State) : BitVec 16 × Detail := (t.status, t.errDetail)

/-! ### Command words, written out from R50's two fields and R51's table -/

theorem test_word_encode : decode 0b00000001#8 = .ok .encode := by decide
theorem test_word_decode : decode 0b00000010#8 = .ok .decode := by decide
theorem test_word_parseSize : decode 0b00010000#8 = .ok .parseSize := by decide
theorem test_word_encRomSizePrg : decode 0b00100000#8 = .ok .encRomSizePrg := by decide
theorem test_word_encRomSizeChr : decode 0b00100001#8 = .ok .encRomSizeChr := by decide
theorem test_word_decRomSizePrg : decode 0b00100010#8 = .ok .decRomSizePrg := by decide
theorem test_word_decRomSizeChr : decode 0b00100011#8 = .ok .decRomSizeChr := by decide
theorem test_word_encRamSize : decode 0b00110000#8 = .ok .encRamSize := by decide
theorem test_word_decRamSize : decode 0b00110001#8 = .ok .decRamSize := by decide

/-- The same nine words from the encoder. -/
theorem test_encode_words :
    [Instr.encode, .decode, .parseSize, .encRomSizePrg, .encRomSizeChr, .decRomSizePrg, .decRomSizeChr, .encRamSize,
      .decRamSize].map encode = [0x01#8, 0x02#8, 0x10#8, 0x20#8, 0x21#8, 0x22#8, 0x23#8, 0x30#8, 0x31#8] := by decide

/-- R52: a value that is no command is rejected by name. -/
theorem test_illegal_word : decode 0x24#8 = .error (.illegalCommand 0x24#8) := by decide

/-- R52: exactly 247 of the 256 values are illegal. -/
theorem test_illegal_count :
    ((List.range 16).map fun h => ((List.range 16).filter fun l => !wfWord (BitVec.ofNat 8 (16 * h + l))).length).sum = 247 := by
  decide

/-- A table word is one byte and no more (R50). -/
theorem test_table_word : decodeTableWord 8 0x22 = some .decRomSizePrg ∧ decodeTableWord 16 0x22 = none ∧
    decodeTableWord 8 0x122 = none ∧ decodeTableWord 8 0x24 = none := by decide

/-! ### WellFormed smoke: one ill-formed term for each check -/

theorem test_wf_word_family0 : wfWord 0x00#8 = false ∧ wfWord 0x03#8 = false := by decide
theorem test_wf_word_family1 : wfWord 0x11#8 = false := by decide
theorem test_wf_word_family2 : wfWord 0x24#8 = false := by decide
theorem test_wf_word_family3 : wfWord 0x32#8 = false := by decide
theorem test_wf_word_no_family : wfWord 0x40#8 = false ∧ wfWord 0xFF#8 = false := by decide
theorem test_wf_literal_empty : wfLiteral (txt []) = false := by decide
theorem test_wf_literal_no_digit : wfLiteral (txt ['K']) = false ∧ wfLiteral (txt ['M']) = false := by decide
theorem test_wf_literal_bad_suffix : wfLiteral (txt ['1', 'k']) = false := by decide
theorem test_wf_literal_two_suffixes : wfLiteral (txt ['1', 'K', 'M']) = false := by decide
theorem test_wf_literal_bad_start : wfLiteral (txt ['+', '1']) = false ∧ wfLiteral (txt [' ', '1']) = false := by decide
theorem test_wf_literal_good : wfLiteral (txt ['0', '0', '7', 'K']) = true ∧ wfLiteral (txt ['9']) = true := by decide

/-! ### One step per command, results from 95_test_vectors.md -/

/-- P3's record: extended console, exponent form, submapper, NVRAM. -/
def recP3 : Record where
  mapper := 0x123
  submapper := some 5
  console := some .vt02
  timing := some .multiple
  prgRom := txt ['3', '0', '7', '2']
  chrRom := txt ['0', 'K']
  prgNvram := some (txt ['3', '2', 'K'])
  chrRam := some (txt ['8', 'K'])

/-- P3's buffer. -/
def bufP3 : Buffer :=
  #v[0x4E, 0x45, 0x53, 0x1A, 0x29, 0x00, 0x30, 0x2E, 0x51, 0x0F, 0x90, 0x07, 0x02, 0x06, 0x00, 0x00]

/-- P6's first record: several checks fail, the mapper's first. -/
def recP6 : Record where
  mapper := 0x2000
  submapper := some 20
  prgRom := txt ['1', '0', '2', '4', 'K']
  chrRom := txt ['1', '2', 'K']
  prgRam := some (txt ['6', '4'])
  chrNvram := some (txt ['1', 'K', 'M'])

/-- A state after reset with a record to encode. -/
def recState (r : Record) : State := { State.reset with inRec := some r }

/-- A state after reset with a buffer to decode. -/
def bufState (b : Buffer) : State := { State.reset with inBuf := some b }

/-- A state after reset with a literal to parse. -/
def litState (cs : List Char) : State := { State.reset with inLit := some (txt cs) }

/-- A state after reset with a byte count to encode. -/
def countState (n : Nat) : State := { State.reset with inCount := some (BitVec.ofNat 64 n) }

/-- A state after reset with a ROM-class pair to decode. -/
def pairState (lo : Byte) (hi : Nibble) : State := { State.reset with inLo := some lo, inHi := some hi }

/-- A state after reset with a shift count to decode. -/
def codeState (c : Nibble) : State := { State.reset with inCode := some c }

/-- s with host actions to come. -/
def pend (as : List HostAction) (s : State) : State := { s with pending := as }

theorem test_encode_p3 : get State.outBuf (exec .encode (recState recP3)) = some (some bufP3) := by decide

theorem test_encode_p6_mapper_first : get ends (exec .encode (recState recP6)) = some (0x0112#16, .num 8192) := by decide

/-- P2: the variant gate and the mapper across three bytes. -/
theorem test_decode_p2 :
    get State.outRec (exec .decode (bufState
      #v[0x4E, 0x45, 0x53, 0x1A, 0x02, 0x01, 0x30, 0x66, 0, 0, 0, 0, 0, 0x59, 0, 0])) =
    some (some ⟨0x063, some 0, some .vertical, some false, some false, some .vsSystem, some .rp2c02, some .rc2c05_02,
      some .dualSystemNormal, txt ['3', '2', 'K'], some (txt ['0', 'K']), some (txt ['0', 'K']), txt ['8', 'K'],
      some (txt ['0', 'K']), some (txt ['0', 'K'])⟩) := by decide

/-- L2.6: TooLarge before InvalidVariantCode. -/
theorem test_decode_rom_before_variant :
    get ends (exec .decode (bufState
      #v[0x4E, 0x45, 0x53, 0x1A, 0xF4, 0x01, 0x00, 0x06, 0, 0x0F, 0, 0, 0, 0x70, 0, 0])) =
    some (0x03A2#16, .num 61) := by decide

/-- L2.1: leading zeros. -/
theorem test_parse_leading_zeros :
    get State.outCount (exec .parseSize (litState ['0', '0', '7', 'K'])) = some (some 7168) := by decide

/-- L2.1: 2^54 times 1024 overflows. -/
theorem test_parse_overflow :
    get ends (exec .parseSize (litState ['1', '8', '0', '1', '4', '3', '9', '8', '5', '0', '9', '4', '8', '1', '9', '8', '4', 'K'])) =
    some (0x0062#16, .text (txt ['1', '8', '0', '1', '4', '3', '9', '8', '5', '0', '9', '4', '8', '1', '9', '8', '4', 'K'])) := by
  decide

/-- E6: 3072 is exponent 10, multiplier 1. -/
theorem test_encRomPrg_exponent :
    get (fun t => (t.outLo, t.outHi)) (exec .encRomSizePrg (countState 3072)) = some (some 0x29, some 0xF) := by decide

/-- E5: 0xF00 units have neither form. -/
theorem test_encRomPrg_no_form :
    get ends (exec .encRomSizePrg (countState 62914560)) = some (0x0032#16, .num 62914560) := by decide

/-- R105: one CHR unit is linear. -/
theorem test_encRomChr_linear :
    get (fun t => (t.outLo, t.outHi)) (exec .encRomSizeChr (countState 8192)) = some (some 0x01, some 0x0) := by decide

/-- R105's example: 1.5 CHR units. -/
theorem test_encRomChr_exponent :
    get (fun t => (t.outLo, t.outHi)) (exec .encRomSizeChr (countState 12288)) = some (some 0x31, some 0xF) := by decide

/-- R107's example. -/
theorem test_decRomPrg_linear :
    get (fun t => (t.outCount, t.outLit)) (exec .decRomSizePrg (pairState 0x40 0x0)) =
    some (some 1048576, some (txt ['1', 'M'])) := by decide

/-- P5: exponent 61. -/
theorem test_decRomPrg_too_large :
    get ends (exec .decRomSizePrg (pairState 0xF4 0xF)) = some (0x00A2#16, .num 61) := by decide

/-- R108's example: the largest linear pair. -/
theorem test_decRomChr_linear :
    get (fun t => (t.outCount, t.outLit)) (exec .decRomSizeChr (pairState 0xFF 0xE)) =
    some (some 31449088, some (txt ['3', '0', '7', '1', '2', 'K'])) := by decide

/-- R106: the exponent form ignores the unit. -/
theorem test_decRomChr_exponent :
    get (fun t => (t.outCount, t.outLit)) (exec .decRomSizeChr (pairState 0x29 0xF)) =
    some (some 3072, some (txt ['3', 'K'])) := by decide

/-- R109: 128 gives 1. -/
theorem test_encRam_first : get State.outCode (exec .encRamSize (countState 128)) = some (some 1) := by decide

/-- R109: 64 is not encodable. -/
theorem test_encRam_sixty_four : get ends (exec .encRamSize (countState 64)) = some (0x0042#16, .num 64) := by decide

/-- R111: 15 is "2048K", never "2M". -/
theorem test_decRam_last :
    get (fun t => (t.outCount, t.outLit)) (exec .decRamSize (codeState 15)) =
    some (some 2097152, some (txt ['2', '0', '4', '8', 'K'])) := by decide

/-- R111: 1 is "128". -/
theorem test_decRam_first :
    get (fun t => (t.outCount, t.outLit)) (exec .decRamSize (codeState 1)) =
    some (some 128, some (txt ['1', '2', '8'])) := by decide

/-- L2.7: CMD 0xFF right after reset. -/
theorem test_step_illegal : get ends (step (pend [.setCmd 0xFF] State.reset)) = some (0x00B2#16, .num 255) := by decide

/-- L2.7: CMD 0x02 right after reset meets the model fault. -/
theorem test_step_unset : step (State.reset.withFetchWord 8 0x02) = .fault (.unsetInput .inBuf) := rfl

/-- L2.7: CMD 0x31 with IN_CODE set runs DEC_RAM_SIZE as the very next step. -/
theorem test_step_placed : get State.outCount (step ((codeState 4).withFetchWord 8 0x31)) = some (some 1024) := by decide

/-- R53: `cmd DEC_RAM_SIZE` is a write of 0x31 to CMD, and an `expect` is no action. -/
theorem test_program_lines :
    (loadProgram [.set (.inCode 4), .cmd .decRamSize, .expect .status (some (.status 1)), .comment] State.reset).pending =
    [.setInput (.inCode 4), .setCmd 0x31] := by decide

/-! ### Witnesses: states and operands that meet the hypotheses of each statement -/

/-- Both ends of every range of R52. -/
theorem witness_IllegalCommandWordsRaiseIllegalCommand :
    ∀ c ∈ [0x00#8, 0x03#8, 0x0F#8, 0x11#8, 0x1F#8, 0x24#8, 0x2F#8, 0x32#8, 0xFF#8],
      (pend [.setCmd c] State.reset).pending = .setCmd c :: [] ∧
      (c.toNat = 0 ∨ (0x03 ≤ c.toNat ∧ c.toNat ≤ 0x0F) ∨ (0x11 ≤ c.toNat ∧ c.toNat ≤ 0x1F) ∨
        (0x24 ≤ c.toNat ∧ c.toNat ≤ 0x2F) ∨ 0x32 ≤ c.toNat) := by decide

theorem witness_StepRunsTheDecodedCommand :
    (pend [.setCmd 0x31] (codeState 4)).pending = .setCmd 0x31 :: [] ∧ decode 0x31#8 = .ok .decRamSize := by decide

theorem witness_PlacedWordIsTheNextCommand : decodeTableWord 8 0x31 = some .decRamSize := by decide

/-- Each of the four clauses. -/
theorem witness_OtherHostActionsAreExact :
    (pend [.setInput (.inCode 4)] State.reset).pending = .setInput (.inCode 4) :: [] ∧
    (pend [.setReadOnly .status] State.reset).pending = .setReadOnly .status :: [] ∧
    (pend [.read .status] State.reset).pending = .read .status :: [] ∧
    (pend [.read .status] State.reset).readReg .status = .ok (.status 0x0000#16) ∧
    (pend [.read (.input .inCode)] (codeState 4)).readReg (.input .inCode) = .ok (.nibble 4) ∧
    (codeState 4).inCode = some 4 ∧
    State.reset.pending = [] := by decide

theorem witness_ResetLeavesTheSpecifiedValues : (pend [.reset] (codeState 4)).pending = .reset :: [] := by decide

/-- An input changed by a host write, and one changed by a reset. -/
theorem witness_InputsChangeOnlyByHostWriteOrReset :
    (∃ t, step (pend [.setInput (.inCode 4)] State.reset) = .next t ∧ t.input .inCode ≠ State.reset.input .inCode) ∧
    (∃ t, step (pend [.reset] (codeState 4)) = .next t ∧ t.input .inCode ≠ (codeState 4).input .inCode) :=
  ⟨⟨_, rfl, by decide⟩, ⟨_, rfl, by decide⟩⟩

/-- A command that succeeds, one that raises an error, an illegal one, and an action that is no command. -/
theorem witness_CommandsWriteExactlyTheirOutputs :
    (∃ t, step (pend [.setCmd 0x31] (codeState 4)) = .next t ∧ t.status = 0x0001#16) ∧
    (∃ t, step (pend [.setCmd 0x30] (countState 64)) = .next t ∧ t.status = 0x0042#16) ∧
    (∃ t, step (pend [.setCmd 0x00] State.reset) = .next t ∧ t.status = 0x00B2#16) ∧
    (∃ t, step (pend [.setReadOnly .errDetail] State.reset) = .next t) :=
  ⟨⟨_, rfl, by decide⟩, ⟨_, rfl, by decide⟩, ⟨_, rfl, by decide⟩, ⟨_, rfl⟩⟩

/-- A command that succeeds and one that raises an error. -/
theorem witness_CommandsEndOkOrInOneOfTheirErrors :
    (∃ t, exec .decRamSize (codeState 4) = .next t) ∧ (∃ t, exec .encRamSize (countState 64) = .next t) :=
  ⟨⟨_, rfl⟩, ⟨_, rfl⟩⟩

/-- Both branches: a register unset (the second of two), and every register set. -/
theorem witness_UnsetInputIsTheOnlyFault :
    (∃ r ∈ reads .decRomSizePrg, State.input { State.reset with inLo := some 0x40 } r = none) ∧
    ¬ (∃ r ∈ reads .decRomSizePrg, (pairState 0x40 0x0).input r = none) := by decide

theorem witness_StepsStopExactlyOnBrokenDuties :
    hostDutiful (pend [.setCmd 0x31] (codeState 4)) = true ∧ hostDutiful (pend [.setCmd 0x31] State.reset) = false ∧
    hostDutiful (pend [.read (.output .outBuf)] State.reset) = false := by decide

/-- Two states that agree on IN_CODE and differ in CMD and STATUS. -/
theorem witness_ResultsDependOnlyOnNamedInputs :
    (∀ r ∈ reads .decRamSize, State.input { codeState 4 with cmd := 0x02, status := 0x0A82 } r = (codeState 4).input r) ∧
    ∃ t, exec .decRamSize (codeState 4) = .next t :=
  ⟨by decide, _, rfl⟩

/-- The whole buffer, its last byte, and nothing at its end. -/
theorem witness_MemReadUndoesMemWrite : 0 + 16 ≤ 16 ∧ 15 + 1 ≤ 16 ∧ 16 + 0 ≤ 16 := by decide

/-- A good literal at the largest count, digits beyond it, a product beyond it, and a literal that is none. -/
theorem witness_ParseSizeResult :
    (litState ['7']).inLit = some (txt ['7']) ∧
    2 ^ Config.bytecountW - 1 < digitSum (txt ['1', '8', '4', '4', '6', '7', '4', '4', '0', '7', '3', '7', '0', '9', '5', '5', '1', '6', '1', '6']) ∧
    ¬ 2 ^ Config.bytecountW - 1 < digitSum (txt ['1', '8', '4', '4', '6', '7', '4', '4', '0', '7', '3', '7', '0', '9', '5', '5', '1', '6', '1', '5']) ∧
    2 ^ Config.bytecountW - 1 < digitSum (txt ['1', '7', '5', '9', '2', '1', '8', '6', '0', '4', '4', '4', '1', '6']) * 1048576 ∧
    ¬ 2 ^ Config.bytecountW - 1 < digitSum (txt ['1', '7', '5', '9', '2', '1', '8', '6', '0', '4', '4', '4', '1', '5']) * 1048576 ∧
    wfLiteral (txt ['1', 'K', 'M']) = false := by decide

/-- The last linear count, the last exponent pair, and a count with neither form. -/
theorem witness_EncRomSizeResult :
    (Instr.encRomSizePrg, 16384) ∈ romEncoders ∧ (Instr.encRomSizeChr, 8192) ∈ romEncoders ∧
    (countState (0xEFF * 16384)).inCount = some 62898176 ∧ 62898176 % 16384 = 0 ∧ 62898176 / 16384 ≤ Config.linearMax ∧
    (countState (2 ^ 59 * 7)).inCount = some 4035225266123964416 ∧ ¬ 4035225266123964416 / 16384 ≤ Config.linearMax ∧
    (countState (2 ^ 60)).inCount = some 1152921504606846976 ∧ 1152921504606846976 = 2 ^ 60 * (2 * 0 + 1) := by decide

/-- The last exponent accepted, the first refused, and the last linear pair. -/
theorem witness_DecRomSizeResult :
    (Instr.decRomSizePrg, 16384) ∈ romDecoders ∧ (Instr.decRomSizeChr, 8192) ∈ romDecoders ∧
    (pairState 0xF3 0xF).inLo = some 0xF3 ∧ ¬ Config.expDecMax < (0xF3#8).toNat / 4 ∧
    Config.expDecMax < (0xF4#8).toNat / 4 ∧ (pairState 0xFF 0xE).inHi = some 0xE ∧ (0xE#4) ≠ 0xF#4 := by decide

/-- 0, both ends of the shift counts, and a power of two without one. -/
theorem witness_EncRamSizeIsTheShiftForm :
    (countState 0).inCount = some 0 ∧ (countState 128).inCount = some 128 ∧ 128 = 64 * 2 ^ 1 ∧
    (countState 2097152).inCount = some 2097152 ∧ 2097152 = 64 * 2 ^ 15 ∧ (countState 64).inCount = some 64 ∧
    64 = 64 * 2 ^ 0 := by decide

theorem witness_DecRamSizeNeverFails : (codeState 0).inCode = some 0 ∧ (codeState 15).inCode = some 15 := by decide

/-- Each clause at a boundary: the largest product, the last linear unit and the last exponent pair, the last exponent, the
last shift count. -/
theorem witness_SizeCommandsSucceedOnTheirDomains :
    (txt ['1', '8', '0', '1', '4', '3', '9', '8', '5', '0', '9', '4', '8', '1', '9', '8', '3'] ≠ [] ∧
      (∀ c ∈ txt ['1', '8', '0', '1', '4', '3', '9', '8', '5', '0', '9', '4', '8', '1', '9', '8', '3'], 0x30 ≤ c.toNat ∧ c.toNat ≤ 0x39) ∧
      (txt ['K'], 1024) ∈ suffixes ∧
      digitSum (txt ['1', '8', '0', '1', '4', '3', '9', '8', '5', '0', '9', '4', '8', '1', '9', '8', '3']) * 1024 ≤ 2 ^ Config.bytecountW - 1 ∧
      (litState ['1', '8', '0', '1', '4', '3', '9', '8', '5', '0', '9', '4', '8', '1', '9', '8', '3', 'K']).inLit =
        some (txt ['1', '8', '0', '1', '4', '3', '9', '8', '5', '0', '9', '4', '8', '1', '9', '8', '3'] ++ txt ['K'])) ∧
    ((Instr.encRomSizePrg, 16384) ∈ romEncoders ∧ (countState 62898176).inCount = some 62898176 ∧
      (62898176#64).toNat % 16384 = 0 ∧ (62898176#64).toNat / 16384 ≤ Config.linearMax) ∧
    (59 ≤ Config.expEncMax ∧ (4035225266123964416#64).toNat = 2 ^ 59 * (2 * 3 + 1)) ∧
    ((Instr.decRomSizeChr, 8192) ∈ romDecoders ∧ (0xF3#8).toNat / 4 ≤ Config.expDecMax) ∧
    ((countState 2097152).inCount = some 2097152 ∧ 15 ≤ Config.ramCountMax ∧ (2097152#64).toNat = 64 * 2 ^ 15) := by decide

theorem witness_RenderingsUseTheirUnits : 0 < 1 ∧ 0 < 1024 ∧ 0 < 1048576 ∧ (txt ['M'], 1048576) ∈ suffixes := by decide

theorem witness_DecodedLiteralDenotesTheCount :
    ∃ t, exec .decRomSizePrg (pairState 0xF3 0xF) = .next t ∧
      t.outLit = some (txt ['7', '6', '9', '6', '5', '8', '1', '3', '9', '4', '4', '3', '2', 'M']) :=
  ⟨_, rfl, by decide⟩

/-- A linear and an exponent count. -/
theorem witness_DecRomSizeUndoesEncRomSize :
    (Instr.encRomSizePrg, 16384) ∈ romEncoders ∧ (Instr.decRomSizePrg, 16384) ∈ romDecoders ∧
    (∃ t, exec .encRomSizePrg (countState 262144) = .next t ∧ t.status = 0x0001#16) ∧
    (∃ t, exec .encRomSizePrg (countState 3072) = .next t ∧ t.status = 0x0001#16) :=
  ⟨by decide, by decide, ⟨_, rfl, by decide⟩, ⟨_, rfl, by decide⟩⟩

/-- A linear pair, a canonical exponent pair, and two pairs that are not canonical: exponent 60, and a whole unit count. -/
theorem witness_CanonicalRomPairs :
    (∃ p, decRom 0xFF 0xE Config.prgUnit .none = .ok p ∧ p.1 = 62898176) ∧
    (∃ p, decRom 0x29 0xF Config.prgUnit .none = .ok p ∧ p.1 = 3072) ∧
    (∃ p, decRom 0xF0 0xF Config.chrUnit .none = .ok p ∧ p.1 = 1152921504606846976) ∧
    (∃ p, decRom 0x38 0xF Config.prgUnit .none = .ok p ∧ p.1 = 1 * (1024 * Config.prgUnit)) :=
  ⟨⟨_, rfl, by decide⟩, ⟨_, rfl, by decide⟩, ⟨_, rfl, by decide⟩, ⟨_, rfl, by decide⟩⟩

/-- Both clauses, at 0 and at the last shift count. -/
theorem witness_RamSizeCommandsInvertEachOther :
    (∃ t, exec .encRamSize (countState 0) = .next t ∧ t.status = 0x0001#16) ∧
    (∃ t, exec .encRamSize (countState 2097152) = .next t ∧ t.status = 0x0001#16) ∧
    (∃ t, exec .decRamSize (codeState 0) = .next t) ∧ (∃ t, exec .decRamSize (codeState 15) = .next t) :=
  ⟨⟨_, rfl, by decide⟩, ⟨_, rfl, by decide⟩, ⟨_, rfl⟩, ⟨_, rfl⟩⟩

/-- P3's record meets every check. -/
theorem witness_EncodeWritesTheLayout :
    (recState recP3).inRec = some recP3 ∧
    romField recP3.prgRom Config.prgUnit .prgRom = .ok (0x29, 0xF) ∧ romField recP3.chrRom Config.chrUnit .chrRom = .ok (0, 0) ∧
    recP3.mapper.toNat ≤ 0xFFF ∧ (recP3.submapper.getD 0).toNat ≤ 0xF ∧
    ramField recP3.prgRam .prgRam = .ok 0 ∧ ramField recP3.prgNvram .prgNvram = .ok 9 ∧
    ramField recP3.chrRam .chrRam = .ok 7 ∧ ramField recP3.chrNvram .chrNvram = .ok 0 := by decide

/-- The mapper and submapper at their largest. -/
theorem witness_EncodeWritesTheLayout_largest :
    ({ recP3 with mapper := 0xFFF, submapper := some 0xF } : Record).mapper.toNat ≤ 0xFFF ∧
    (({ recP3 with mapper := 0xFFF, submapper := some 0xF } : Record).submapper.getD 0).toNat ≤ 0xF := by decide

/-- A record that fails a check and one that passes all. -/
theorem witness_EncodeReportsTheFirstFailingCheck :
    (recState recP6).inRec = some recP6 ∧
    (encodeChecks recP6).findSome? id = some ⟨.mapperTooLarge, .mapper, .num 8192⟩ ∧
    (encodeChecks recP3).findSome? id = none := by decide

/-- Each branch at its boundary: mapper 0x1000, submapper 16, and both at their largest. -/
theorem witness_MapperAndSubmapperChecks :
    (recState recP6).inRec = some recP6 ∧ romField recP6.prgRom Config.prgUnit .prgRom = .ok (0x40, 0) ∧
    romField recP6.chrRom Config.chrUnit .chrRom = .ok (0x31, 0xF) ∧
    0xFFF < (0x1000#64).toNat ∧ ¬ 0xFFF < (0xFFF#64).toNat ∧ 0xF < ((some 16#64).getD 0).toNat ∧
    ¬ 0xF < ((some 15#64).getD 0).toNat := by decide

theorem witness_VsFieldsAreIgnoredForOtherConsoles :
    (recState recP3).inRec = some recP3 ∧ recP3.console.getD .nes ≠ .vsSystem := by decide

/-- P3's buffer passes every check. -/
theorem witness_DecodeWritesTheFields : (bufState bufP3).inBuf = some bufP3 ∧ decodeVerdict bufP3 = none := by decide

/-- The five errors, in the order of the checks (L2.6). -/
theorem witness_DecodeReportsTheFirstFailingCheck :
    decodeVerdict #v[0x4E, 0x45, 0x53, 0x1B, 0x01, 0x01, 0, 0x02, 0, 0, 0, 0, 0, 0, 0, 0] =
      some ⟨.badSignature, .signature, .num 0x1B53454E⟩ ∧
    decodeVerdict #v[0x4E, 0x45, 0x53, 0x1A, 0x01, 0x01, 0, 0x03, 0, 0, 0, 0, 0, 0, 0, 0] =
      some ⟨.badFormatMarker, .formatMarker, .num 3⟩ ∧
    decodeVerdict #v[0x4E, 0x45, 0x53, 0x1A, 0xF4, 0xFC, 0, 0x02, 0, 0xFF, 0, 0, 0, 0, 0, 0] =
      some ⟨.tooLarge, .prgRom, .num 61⟩ ∧
    decodeVerdict #v[0x4E, 0x45, 0x53, 0x1A, 0x01, 0xFF, 0, 0x02, 0, 0xF0, 0, 0, 0, 0, 0, 0] =
      some ⟨.tooLarge, .chrRom, .num 63⟩ ∧
    decodeVerdict #v[0x4E, 0x45, 0x53, 0x1A, 0x01, 0x01, 0, 0x0E, 0, 0, 0, 0, 0, 0x71, 0, 0] =
      some ⟨.invalidVariantCode, .vsHardware, .num 7⟩ := by decide

/-- Two buffers that differ in every ignored bit (console Nes). -/
theorem witness_DecodeIgnoresTheUnreadBits :
    let b : Buffer := #v[0x4E, 0x45, 0x53, 0x1A, 0x01, 0x01, 0, 0x02, 0, 0, 0, 0, 0, 0, 0, 0]
    let b' : Buffer := #v[0x4E, 0x45, 0x53, 0x1A, 0x01, 0x01, 0, 0x02, 0, 0, 0, 0, 0xFC, 0xFF, 0xFF, 0xFF]
    (bufState b).inBuf = some b ∧ (∃ t, exec .decode (bufState b) = .next t) ∧ (∀ i (h : i < 12), b'[i] = b[i]) ∧
    b'[12].toNat % 4 = b[12].toNat % 4 ∧
    (b[7].toNat / 4 % 4 ≠ 0 → b[7].toNat / 4 % 4 ≠ 2 → b'[13].toNat % 16 = b[13].toNat % 16) ∧
    (consoleNumber b = 1 → b'[13].toNat / 16 = b[13].toNat / 16) :=
  ⟨by decide, ⟨_, rfl⟩, by decide, by decide, by decide, by decide⟩

theorem witness_DecodedFieldsAreIndependent :
    (∃ q, decodeBuffer bufP3 = .ok q) ∧
    (∃ q, decodeBuffer #v[0x4E, 0x45, 0x53, 0x1A, 0x02, 0x01, 0x30, 0x66, 0, 0, 0, 0, 0, 0x59, 0, 0] = .ok q) :=
  ⟨⟨_, rfl⟩, ⟨_, rfl⟩⟩

theorem witness_DecodedRecordIsInNormalForm :
    ∃ t q, exec .decode (bufState bufP3) = .next t ∧ t.outRec = some q := ⟨_, _, rfl, rfl⟩

/-- P3's record is valid, and so is one with the console VsSystem. -/
theorem witness_DecodeOfEncodeIsTheNormalForm :
    (recState recP3).inRec = some recP3 ∧ (∃ t, exec .encode (recState recP3) = .next t ∧ t.status = 0x0001#16) ∧
    VsValid recP3 ∧ VsValid { recP3 with console := some .vsSystem, vsPpu := some .reservedF } :=
  ⟨by decide, ⟨_, rfl, by decide⟩, .inr ⟨rfl, rfl⟩, .inl rfl⟩

theorem witness_EncodeOfDecodeOfEncodeIsIdentical :
    ∃ t, exec .encode (recState recP3) = .next t ∧ t.status = 0x0001#16 := ⟨_, rfl, by decide⟩

/-- The state after DEC_RAM_SIZE of 1, with another command to come. -/
def ranState : State :=
  { codeState 1 with
    cmd := 0x31, status := 0x0001, outCount := some 128, outLit := some (txt ['1', '2', '8']), pending := [.setCmd 0x31] }

theorem ranState_inv : Inv ranState where
  status := .ok
  outputs h := absurd rfl h
  idle h := absurd h (by decide)
  literal l h := by cases h; exact ⟨by decide, _, rfl, by decide⟩
  record q h := by cases h
  buffer b h := by cases h

/-- The state after ENCODE of P3's record, with a DECODE of its buffer to come: byte 13 under the sentinel. -/
def encodedState : State :=
  { recState recP3 with
    cmd := 0x01, status := 0x0001, outBuf := some bufP3, wb := bufP3, pending := [.setInput (.inBuf bufP3), .setCmd 0x02] }

theorem encodedState_inv : Inv encodedState where
  status := .ok
  outputs h := absurd rfl h
  idle h := absurd h (by decide)
  literal l h := by cases h
  record q h := by cases h
  buffer b h := by
    cases h
    exact ⟨⟨by unfold SignatureOk; decide, by decide, by decide, by unfold Byte13Shape; decide, by decide, by decide⟩, rfl⟩

/-- Byte 13 at both ends of each of its shapes. -/
theorem test_byte13_shapes :
    (∀ p ∈ [(0, 0), (2, 0), (1, 0x00), (1, 0x6F), (3, 0x03), (3, 0x0F)], Byte13Shape p.1 p.2) ∧
    (∀ p ∈ [(0, 1), (2, 0x80), (1, 0x70), (3, 0x02), (3, 0x13)], ¬ Byte13Shape p.1 p.2) := by
  unfold Byte13Shape; decide

theorem witness_EveryStepKeepsInv_encoded : Inv encodedState ∧ ∃ t, step encodedState = .next t :=
  ⟨encodedState_inv, _, rfl⟩

theorem witness_EveryStepKeepsInv : Inv ranState ∧ ∃ t, step ranState = .next t := ⟨ranState_inv, _, rfl⟩

/-- The invariant also holds after an error. -/
theorem witness_StatusFieldsAreLegal :
    Inv ranState ∧ Inv { State.reset with cmd := 0x30, status := statusError .invalidRamSize .none, errDetail := .num 64 } where
  left := ranState_inv
  right :=
    { status := .error .invalidRamSize .none (.num 64) (by decide)
      outputs := fun _ o => by cases o <;> rfl
      idle := fun h => absurd h (by decide)
      literal := fun l h => by cases h
      record := fun q h => by cases h
      buffer := fun b h => by cases h }

/-- The largest linear count, the largest exponent count, and both ends of the shift counts. -/
theorem witness_RenderingsParseBack :
    (∃ p, decRom 0xFF 0xE Config.prgUnit .none = .ok p ∧ p.1 = 62898176) ∧
    (∃ p, decRom 0xF3 0xF Config.chrUnit .none = .ok p ∧ p.1 = 8070450532247928832) ∧
    (decRam 0).1 = 0 ∧ (decRam 15).1 = 2097152 :=
  ⟨⟨_, rfl, by decide⟩, ⟨_, rfl, by decide⟩, by decide, by decide⟩

end Sys2Proof.Tests
end

section
/-!
PROOF. `memRead` and `memWrite` (R8, R43) for every address and byte count: one lemma each for the frame of a write, the
value of a read and a read after a write, by induction on the byte count along the recursion of the two definitions.
-/
namespace Sys2Proof.Machine

@[simp] theorem memRead_zero (b : Buffer) (addr : Nat) (h : addr + 0 ≤ 16) : memRead b addr 0 h = 0 := rfl

theorem memRead_succ (b : Buffer) (addr n : Nat) (h : addr + (n + 1) ≤ 16) :
    memRead b addr (n + 1) h = b[addr].toNat + 256 * memRead b (addr + 1) n (by omega) := rfl

@[simp] theorem memWrite_zero (b : Buffer) (addr v : Nat) (h : addr + 0 ≤ 16) : memWrite b addr 0 v h = b := rfl

theorem memWrite_succ (b : Buffer) (addr n v : Nat) (h : addr + (n + 1) ≤ 16) :
    memWrite b addr (n + 1) v h = memWrite (b.set addr (BitVec.ofNat 8 v)) (addr + 1) n (v / 256) (by omega) := rfl

/-- The frame of a write. -/
theorem getElem_memWrite_of_outside (b : Buffer) (addr n v : Nat) (h : addr + n ≤ 16) {i : Nat} (hi : i < 16)
    (outside : i < addr ∨ addr + n ≤ i) : (memWrite b addr n v h)[i] = b[i] := by
  induction n generalizing b addr v with
  | zero => rw [memWrite_zero]
  | succ n ih =>
    have hne : addr ≠ i := by omega
    rw [memWrite_succ, ih _ _ _ _ (by omega), Vector.getElem_set_ne _ _ hne]

/-- Little-endian order (R43): each further byte weighs 256 times the one before it. -/
theorem memRead_eq_sum (b : Buffer) (addr n : Nat) (h : addr + n ≤ 16) :
    memRead b addr n h = ∑ i : Fin n, b[addr + i.val].toNat * 256 ^ i.val := by
  induction n generalizing addr with
  | zero => simp
  | succ n ih =>
    rw [memRead_succ, ih, Fin.sum_univ_succ, Finset.mul_sum]
    congr 1
    · simp
    · refine Finset.sum_congr rfl fun i _ => ?_
      simp only [Fin.val_succ, Nat.add_right_comm addr 1, ← Nat.add_assoc, pow_succ]
      ring

/-- The low byte read back is the one written first, as the rest of the write starts one byte above it; what is left is
`Nat.mod_mul`. -/
theorem memRead_memWrite_same (b : Buffer) (addr n v : Nat) (h : addr + n ≤ 16) :
    memRead (memWrite b addr n v h) addr n h = v % 256 ^ n := by
  induction n generalizing b addr v with
  | zero => simp [Nat.mod_one]
  | succ n ih =>
    have low : (memWrite b addr (n + 1) v h)[addr].toNat = v % 256 := by
      rw [memWrite_succ, getElem_memWrite_of_outside _ _ _ _ _ _ (by omega), Vector.getElem_set_self,
        BitVec.toNat_ofNat]
    calc memRead (memWrite b addr (n + 1) v h) addr (n + 1) h
        = v % 256 + 256 * (v / 256 % 256 ^ n) := by rw [memRead_succ, low, memWrite_succ, ih]
      _ = v % 256 ^ (n + 1) := by rw [pow_succ', Nat.mod_mul]

/-- Settles O14: the sum, the read after the write and the frame, each by induction on the byte count. -/
theorem memReadUndoesMemWrite : Obligations.MemReadUndoesMemWrite := by
  unfold Obligations.MemReadUndoesMemWrite
  intro b addr n v h
  exact ⟨memRead_eq_sum b addr n h, memRead_memWrite_same b addr n v h,
    fun _ hi outside => getElem_memWrite_of_outside b addr n v h hi outside⟩

end Sys2Proof.Machine
end

section
/-!
PROOF. What a CMD write does to the outputs (R25) and when a command stops (R27): a command's end is said once for
`exec`, by its two cases (it writes and succeeds, or it raises), and carried over to the step of a CMD write.
-/
namespace Sys2Proof.Machine

theorem step_of_pending_cons {s : State} {a : HostAction} {rest : List HostAction} (h : s.pending = a :: rest) :
    step s = hostAct a { s with pending := rest } := by
  simp only [step, hostStep, h]

@[simp] theorem hostAct_setCmd (c : Byte) (s : State) : hostAct (.setCmd c) s = runCommand c s := rfl

/-! ### The end of a command that succeeds -/

/-- STATUS and ERR_DETAIL are no part of a command's frame, nor are the outputs. -/
theorem Writer.succeed_frame {i : Instr} {w : State → State} (hw : Writer i w) (s : State) :
    CommandFrame s (succeed (w (clearOutputs s))) :=
  { hw.frame (clearOutputs s) with }

/-- An output the command does not write holds what the clearing of `Begin` left in it. -/
theorem Writer.succeed_outputs {i : Instr} {w : State → State} (hw : Writer i w) (s : State) :
    OutputsExactly (writes i) (succeed (w (clearOutputs s))) := by
  intro o
  rw [succeed_output]
  by_cases ho : o ∈ writes i
  · simp only [hw.written _ o ho, ho]
  · simp [hw.outputs _ o ho, ho]

theorem endsOk_succeed (s : State) : EndsOk (succeed s) := ⟨rfl, rfl⟩

/-! ### The end of any command -/

theorem exec_frame {i : Instr} {s t : State} (h : exec i s = .next t) : CommandFrame s t := by
  rcases exec_next h with ⟨w, hw, rfl⟩ | ⟨e, -, rfl⟩
  · exact (result_writer hw).succeed_frame s
  · exact raise_frame e s

/-- R25 for `exec`: exactly the command's own outputs on success, none on an error. -/
theorem exec_outputs {i : Instr} {s t : State} (h : exec i s = .next t) :
    (EndsOk t ∧ OutputsExactly (writes i) t ∧ (i ≠ .encode → t.wb = s.wb ∧ t.freeIdx = s.freeIdx)) ∨
      ∃ k f d, EndsInError t k f d := by
  rcases exec_next h with ⟨w, hw, rfl⟩ | ⟨e, -, rfl⟩
  · have hw := result_writer hw
    exact .inl ⟨endsOk_succeed _, hw.succeed_outputs s, fun hi => ⟨hw.wb hi _, hw.freeIdx _⟩⟩
  · exact .inr ⟨_, _, _, raise_endsInError e s⟩

/-! ### Host actions that leave the outputs -/

theorem writeInput_sameOutputs (w : InputWrite) (s : State) : SameOutputs s (writeInput w s) := by
  cases w <;> exact ⟨rfl, rfl, rfl, rfl, rfl, rfl, rfl⟩

/-- Of the host's actions only a CMD write and a reset can change an output. -/
theorem hostAct_sameOutputs {a : HostAction} {s t : State} (hcmd : ∀ c, a ≠ .setCmd c) (hreset : a ≠ .reset)
    (h : hostAct a s = .next t) : SameOutputs s t := by
  cases a with
  | setInput w =>
    cases h
    exact writeInput_sameOutputs w s
  | setCmd c => exact absurd rfl (hcmd c)
  | setReadOnly r =>
    cases h
    exact ⟨rfl, rfl, rfl, rfl, rfl, rfl, rfl⟩
  | read r =>
    simp only [hostAct] at h
    split at h <;> cases h
    exact ⟨rfl, rfl, rfl, rfl, rfl, rfl, rfl⟩
  | reset => exact absurd rfl hreset

/-! ### The statements -/

/-- Settles O9: a CMD write runs the decoded command or raises IllegalCommand; both ends are known. -/
theorem commandsWriteExactlyTheirOutputs : Obligations.CommandsWriteExactlyTheirOutputs := by
  unfold Obligations.CommandsWriteExactlyTheirOutputs
  refine ⟨fun s t c rest hp hstep => ?_, fun s t a rest hp hcmd hreset hstep => ?_⟩
  · rw [step_of_pending_cons hp, hostAct_setCmd] at hstep
    rcases runCommand_cases c { s with pending := rest } with ⟨i, hi, hrun⟩ | ⟨-, hrun⟩
    · rw [hrun] at hstep
      have frame := exec_frame hstep
      refine ⟨frame.cmd, frame.pending, { frame with }, ?_⟩
      exact (exec_outputs hstep).imp_left fun ⟨hok, hout, hheld⟩ => ⟨hok, i, hi, hout, hheld⟩
    · rw [hrun] at hstep
      cases hstep
      exact ⟨rfl, rfl, ⟨rfl, rfl, rfl, rfl, rfl, rfl, rfl⟩, .inr ⟨_, _, _, raise_endsInError _ _⟩⟩
  · rw [step_of_pending_cons hp] at hstep
    exact { hostAct_sameOutputs hcmd hreset hstep with }

/-- Settles O11: a command's computation is there exactly when its inputs are set, and `exec` then completes it. -/
theorem unsetInputIsTheOnlyFault : Obligations.UnsetInputIsTheOnlyFault := by
  unfold Obligations.UnsetInputIsTheOnlyFault
  intro i s
  cases hr : result i s with
  | none =>
    obtain ⟨r, hreads, hunset, hfault⟩ := exec_of_unset hr
    rw [if_pos ⟨r, hreads, hunset⟩]
    exact ⟨r, hreads, hunset, hfault⟩
  | some x =>
    have hset := (result_isSome i s).mp (by rw [hr, Option.isSome_some])
    rw [if_neg fun ⟨r, hreads, hunset⟩ => hset r hreads hunset, exec_of_result hr]
    exact complete_next x s

end Sys2Proof.Machine
end

section
/-!
PROOF. The encodings: the nine command words (R51), the values that are no command (R52, R213) and the codes of the
enumerations (R16, R65 to R68, R201, R202). The laws made once per command and per enumeration carry them.
-/
namespace Sys2Proof.Machine

/-! ### Command words -/

/-- Settles O1: each of the nine words is looked up in the table of R51. -/
theorem commandWordsDecode : Obligations.CommandWordsDecode := by
  unfold Obligations.CommandWordsDecode
  decide

/-- R51 lists one word per command. -/
theorem eq_encode_of_decode {c : Byte} {i : Instr} (h : Sys2Proof.decode c = .ok i) : c = Sys2Proof.encode i := by
  have unique : Laws.RoundTrip.Statement i := by
    cases i with
    | encode => exact Laws.RoundTrip.encode
    | decode => exact Laws.RoundTrip.decode
    | parseSize => exact Laws.RoundTrip.parseSize
    | encRomSizePrg => exact Laws.RoundTrip.encRomSizePrg
    | encRomSizeChr => exact Laws.RoundTrip.encRomSizeChr
    | decRomSizePrg => exact Laws.RoundTrip.decRomSizePrg
    | decRomSizeChr => exact Laws.RoundTrip.decRomSizeChr
    | encRamSize => exact Laws.RoundTrip.encRamSize
    | decRamSize => exact Laws.RoundTrip.decRamSize
  obtain ⟨-, -, -, only⟩ := unique
  exact only c h

/-- The words of the commands as numbers (R51). -/
theorem encode_toNat_mem (i : Instr) :
    (Sys2Proof.encode i).toNat ∈ [0x01, 0x02, 0x10, 0x20, 0x21, 0x22, 0x23, 0x30, 0x31] := by
  cases i <;> decide

/-- The ranges of R52 hold no command's word. -/
theorem decode_ne_ok_of_illegal {c : Byte}
    (hc : c.toNat = 0 ∨ (0x03 ≤ c.toNat ∧ c.toNat ≤ 0x0F) ∨ (0x11 ≤ c.toNat ∧ c.toNat ≤ 0x1F) ∨
      (0x24 ≤ c.toNat ∧ c.toNat ≤ 0x2F) ∨ 0x32 ≤ c.toNat) (i : Instr) : Sys2Proof.decode c ≠ .ok i := by
  intro h
  have word := encode_toNat_mem i
  rw [← eq_encode_of_decode h] at word
  simp only [List.mem_cons, List.not_mem_nil, or_false] at word
  omega

theorem illegalErr_detail (c : Byte) : (illegalErr c).detail = .num (c.zeroExtend 64) :=
  congrArg Detail.num (BitVec.eq_of_toNat_eq (by simp))

/-- Settles O3: no value of R52's ranges decodes, and a CMD write of such a value raises IllegalCommand. -/
theorem illegalCommandWordsRaiseIllegalCommand : Obligations.IllegalCommandWordsRaiseIllegalCommand := by
  unfold Obligations.IllegalCommandWordsRaiseIllegalCommand
  intro s c rest hp hc
  rcases runCommand_cases c { s with pending := rest } with ⟨i, hi, -⟩ | ⟨-, hrun⟩
  · exact absurd hi (decode_ne_ok_of_illegal hc i)
  · rw [step_of_pending_cons hp, hostAct_setCmd]
    have status : statusError .illegalCommand .none = 0x00B2#16 := by decide
    exact ⟨_, hrun, illegalErr_detail c ▸ raise_endsInError (illegalErr c) _, status, rfl, rfl,
      ⟨rfl, rfl, rfl, rfl, rfl, rfl, rfl⟩⟩

/-! ### Enumeration codes -/

/-- Settles O15: the lists of codes are computed, the inverse laws are those of the codes. -/
theorem enumerationCodesAgree : Obligations.EnumerationCodesAgree := by
  unfold Obligations.EnumerationCodesAgree
  exact ⟨rfl, rfl, rfl, rfl, rfl, rfl, rfl,
    console_ofCode_code, console_code_ofCode, timing_ofCode_code, timing_code_ofCode,
    vsPpu_ofCode_code, vsPpu_code_ofCode, vsHardware_ofCode_code, fun _ => vsHardware_ofCode_none⟩

end Sys2Proof.Machine
end

section
/-!
PROOF. Every step keeps the invariant. A command ends in `succeed` or `raise` after `Begin` cleared the outputs: an error
leaves them clear and has a detail, and a success writes a buffer of ENCODE's shape, a record in normal form, or a count
beside its rendering. A host reset has no output, and no other action touches a register the invariant speaks of.
-/
namespace Sys2Proof.Machine

/-! ### Why a command fails -/

theorem checkMapper_error {r : Record} {e : Err} (h : checkMapper r = .error e) :
    e = ⟨.mapperTooLarge, .mapper, .ofNat r.mapper.toNat⟩ := by
  unfold checkMapper at h
  split at h <;> cases h
  rfl

theorem checkSubmapper_error {r : Record} {e : Err} (h : checkSubmapper r = .error e) :
    e = ⟨.submapperTooLarge, .submapper, .ofNat (submapperOf r).toNat⟩ := by
  unfold checkSubmapper at h
  split at h <;> cases h
  rfl

theorem unpackVs_error {b : Buffer} {con : Console} {e : Err} (h : unpackVs b con = .error e) :
    e = ⟨.invalidVariantCode, .vsHardware, .ofNat (highNibble (byteAt b 13)).toNat⟩ := by
  unfold unpackVs at h
  split at h
  · split at h <;> cases h
    rfl
  · cases h

/-- The error is one R201 lists for the command, and it has a detail. -/
def Raisable (i : Instr) (e : Err) : Prop := e.kind ∈ mayRaise i ∧ e.detail ≠ .noDetail

theorem raisable_ofNat {i : Instr} {k : ErrKind} (hk : k ∈ mayRaise i) (f : FieldId) (n : Nat) :
    Raisable i ⟨k, f, .ofNat n⟩ := ⟨hk, Detail.noConfusion⟩

theorem raisable_of_mem {i : Instr} {e : Err} {ks : List ErrKind} (hks : ∀ k ∈ ks, k ∈ mayRaise i) (hk : e.kind ∈ ks)
    (hd : e.detail ≠ .noDetail) : Raisable i e := ⟨hks _ hk, hd⟩

/-- The errors of ENCODE, in the order of its checks (R140). -/
theorem encodeRecord_error {r : Record} {e : Err} (h : encodeRecord r = .error e) : Raisable .encode e := by
  have rom : ∀ {s u f}, romField s u f = .error e → Raisable .encode e := fun h =>
    have ⟨hk, _, hd⟩ := romField_error h
    raisable_of_mem (by decide) hk hd
  have ram : ∀ {x f}, ramField x f = .error e → Raisable .encode e := fun h =>
    have ⟨hk, _, hd⟩ := ramField_error h
    raisable_of_mem (by decide) hk hd
  simp only [encodeRecord, packRomSizes, packRamSizes, bind_eq_error, pure, Except.pure, reduceCtorEq, and_false,
    exists_false, or_false] at h
  rcases h with (h | ⟨p, -, h⟩) | ⟨wb, -, h | ⟨-, -, h | ⟨-, -, h⟩⟩⟩
  · exact rom h
  · exact rom h
  · rw [checkMapper_error h]
    exact raisable_ofNat (by decide) _ _
  · rw [checkSubmapper_error h]
    exact raisable_ofNat (by decide) _ _
  · rcases h with h | ⟨a, -, h | ⟨b, -, h | ⟨c, -, h⟩⟩⟩ <;> exact ram h

/-- The errors of DECODE, in the order of its checks (R160). -/
theorem decodeBuffer_error {b : Buffer} {e : Err} (h : decodeBuffer b = .error e) : Raisable .decode e := by
  have rom : ∀ {lo hi u f}, decRom lo hi u f = .error e → Raisable .decode e := fun h =>
    have ⟨_, _, he⟩ := decRom_error h
    he ▸ raisable_ofNat (by decide) _ _
  simp only [decodeBuffer, bind_eq_error, pure, Except.pure, reduceCtorEq, and_false, exists_false, or_false] at h
  rcases h with h | ⟨-, -, h | ⟨-, -, h | ⟨p, -, h | ⟨c, -, h⟩⟩⟩⟩
  · unfold checkSignature at h
    split at h <;> cases h
    exact raisable_ofNat (by decide) _ _
  · unfold checkMarker at h
    split at h <;> cases h
    exact raisable_ofNat (by decide) _ _
  · exact rom h
  · exact rom h
  · rw [unpackVs_error h]
    exact raisable_ofNat (by decide) _ _

theorem result_error {i : Instr} {s : State} {e : Err} (h : result i s = some (.error e)) : Raisable i e := by
  cases i with simp only [result, Option.map_eq_some_iff, Option.bind_eq_some_iff, map_eq_error, reduceCtorEq, and_false,
    exists_false] at h
  | encode =>
    obtain ⟨r, -, h⟩ := h
    exact encodeRecord_error h
  | decode =>
    obtain ⟨b, -, h⟩ := h
    exact decodeBuffer_error h
  | parseSize =>
    obtain ⟨l, -, h⟩ := h
    rcases parseLit_error h with rfl | rfl <;> exact ⟨by simp [mayRaise], Detail.noConfusion⟩
  | encRomSizePrg | encRomSizeChr =>
    obtain ⟨n, -, h⟩ := h
    rw [encRom_error h]
    exact raisable_ofNat (by decide) _ _
  | decRomSizePrg | decRomSizeChr =>
    obtain ⟨lo, -, hi, -, h⟩ := h
    obtain ⟨-, -, rfl⟩ := decRom_error h
    exact raisable_ofNat (by decide) _ _
  | encRamSize =>
    obtain ⟨n, -, h⟩ := h
    rw [encRam_error h]
    exact raisable_ofNat (by decide) _ _

/-! ### What ENCODE writes -/

/-- Byte 7 below the mapper's nibble: the marker, and the console's code or the sentinel 3 above it (R59, R75). -/
theorem byte7_marker_console {v : Byte} {m k : Nibble}
    (h : v = 0b10#8 ||| inHigh m ||| (if k.toNat ≤ 2 then inLow k <<< 2 else 0b11#8 <<< 2)) :
    v.toNat % 4 = 2 ∧ v.toNat / 4 % 4 = min k.toNat 3 := by
  subst h
  revert m k
  decide

theorem vsHardware_code_le (h : VsHardware) : h.code.toNat ≤ 6 := by
  cases h <;> decide

theorem inLow_or_inHigh_div (x y : Nibble) : (inLow x ||| inHigh y).toNat / 16 = y.toNat := by
  rw [← highNibble_toNat, (nib_or x y).2]

theorem inLow_toNat (k : Nibble) : (inLow k).toNat = k.toNat := by
  revert k; decide

/-- Byte 13 as PackConsole and PackVs fill it has the shape of its console (R64, R75). -/
theorem byte13Shape_packed (con : Console) (p : VsPpu) (h : VsHardware) :
    Byte13Shape (min con.code.toNat 3)
      ((if con.code.toNat ≤ 2 then 0#8 else inLow con.code) |||
        (if con = .vsSystem then inLow p.code ||| inHigh h.code else 0#8)).toNat := by
  by_cases hvs : con = .vsSystem
  · subst hvs
    show Byte13Shape 1 (0#8 ||| (inLow p.code ||| inHigh h.code)).toNat
    rw [BitVec.zero_or, Byte13Shape, if_pos rfl, inLow_or_inHigh_div]
    exact vsHardware_code_le h
  · have hne : con.code.toNat ≠ 1 := fun hk => hvs (console_code_inj (BitVec.eq_of_toNat_eq hk))
    have hlt := con.code.isLt
    by_cases hk : con.code.toNat ≤ 2
    · have : min con.code.toNat 3 ≠ 1 ∧ min con.code.toNat 3 ≠ 3 := by omega
      simp [Byte13Shape, hvs, hk, this]
    · have : min con.code.toNat 3 = 3 := by omega
      rw [this, if_neg hk, if_neg hvs, BitVec.or_zero, inLow_toNat, Byte13Shape, if_neg (by decide), if_pos rfl]
      omega

theorem encodeRecord_shape {r : Record} {buf : Buffer} (h : encodeRecord r = .ok buf) : EncodedShape buf := by
  obtain ⟨p, c, a, b, d, e, -, -, -, -, -, -, -, -, rfl⟩ := encodeRecord_ok.mp h
  obtain ⟨sig, -, -, -, b7, -, -, -, -, b12, b13, b14, b15⟩ := byteAt_packed r p c a b d e
  obtain ⟨marker, console⟩ := byte7_marker_console b7
  exact
    { signature := ⟨sig 0, sig 1, sig 2, sig 3⟩
      marker := marker
      timing := by
        show (byteAt (packed r p c a b d e) 12).toNat < 4
        rw [b12, BitVec.toNat_setWidth]
        exact (Nat.mod_le _ _).trans_lt (r.timing.getD .rp2c02).code.isLt
      byte13 := by
        show Byte13Shape ((byteAt (packed r p c a b d e) 7).toNat / 4 % 4) (byteAt (packed r p c a b d e) 13).toNat
        rw [console, b13]
        exact byte13Shape_packed _ _ _
      byte14 := b14
      byte15 := b15 }

/-! ### What DECODE writes -/

theorem decodeBuffer_normalForm {b : Buffer} {q : Record} (h : decodeBuffer b = .ok q) : NormalForm q := by
  obtain ⟨-, -, pn, ps, cn, cs, ppu, hw, hp, hc, hvs, rfl⟩ := decodeBuffer_ok.mp h
  obtain rfl : ps = renderRom pn := decRom_ok hp
  obtain rfl : cs = renderRom cn := decRom_ok hc
  exact
    { mapper := by
        have := mapper_num b
        have := b[6].isLt
        have := b[7].isLt
        dsimp only
        omega
      submapper := ⟨_, rfl, by
        rw [unpackSubmapper, BitVec.toNat_setWidth]
        exact (Nat.mod_le _ _).trans (Nat.le_of_lt_succ (highNibble (byteAt b 8)).isLt)⟩
      mirroring := rfl
      battery := rfl
      trainer := rfl
      console := rfl
      timing := rfl
      vs := by
        rcases unpackVs_ok hvs with ⟨hcon, rfl, x, rfl, -⟩ | ⟨hcon, rfl, rfl⟩
        · exact ⟨fun _ => ⟨rfl, rfl⟩, fun hne => absurd (congrArg some hcon) hne⟩
        · exact ⟨fun heq => absurd (Option.some.inj heq) hcon, fun _ => ⟨rfl, rfl⟩⟩
      prgRom := wfLiteral_renderRom pn
      chrRom := wfLiteral_renderRom cn
      prgRam := ⟨_, rfl, wfLiteral_renderRam _⟩
      prgNvram := ⟨_, rfl, wfLiteral_renderRam _⟩
      chrRam := ⟨_, rfl, wfLiteral_renderRam _⟩
      chrNvram := ⟨_, rfl, wfLiteral_renderRam _⟩ }

/-! ### The invariant after each end of a command -/

/-- STATE is 2 in every error (R22). -/
theorem statusError_ne_idle (k : ErrKind) (f : FieldId) : statusError k f ≠ 0x0000#16 := by
  intro h
  have num := statusError_toNat k f
  rw [h, BitVec.toNat_zero] at num
  omega

theorem inv_raise {e : Err} (hd : e.detail ≠ .noDetail) (s : State) : Inv (raise e (clearOutputs s)) where
  status := .error e.kind e.field e.detail hd
  outputs _ o := by simp
  idle h := absurd h (statusError_ne_idle e.kind e.field)
  literal l h := by cases h
  record q h := by cases h
  buffer b h := by cases h

/-- After a success the clauses on the three outputs with a meaning of their own are left. -/
theorem inv_succeed {t : State}
    (literal : ∀ l, t.outLit = some l → wfLiteral l ∧ ∃ n, t.outCount = some n ∧ parseLit l .none = .ok n.toNat)
    (record : ∀ q, t.outRec = some q → NormalForm q)
    (buffer : ∀ b, t.outBuf = some b → EncodedShape b ∧ t.wb = b) : Inv (succeed t) where
  status := .ok
  outputs h := absurd rfl h
  idle h := absurd (show statusOk = 0x0000#16 from h) (by decide)
  literal := literal
  record := record
  buffer := buffer

theorem inv_putBuffer {buf : Buffer} (hb : EncodedShape buf) (s : State) : Inv (succeed (putBuffer buf (clearOutputs s))) :=
  inv_succeed (by simp) (by simp) (by rintro b ⟨⟩; exact ⟨hb, rfl⟩)

theorem inv_putRecord {q : Record} (hq : NormalForm q) (s : State) : Inv (succeed (putRecord q (clearOutputs s))) :=
  inv_succeed (by simp) (by rintro _ ⟨⟩; exact hq) (by simp)

/-- A count that fits its register is the count its literal denotes. -/
theorem inv_putCountLit {p : Nat × Literal} (hwf : wfLiteral p.2) (hle : p.1 ≤ maxCount)
    (hparse : parseLit p.2 .none = .ok p.1) (s : State) : Inv (succeed (putCountLit p (clearOutputs s))) :=
  inv_succeed (by rintro _ ⟨⟩; exact ⟨hwf, _, rfl, by rw [count_toNat hle]; exact hparse⟩) (by simp) (by simp)

theorem inv_decRom {lo : Byte} {hi : Nibble} {unit : Nat} {p : Nat × Literal} (hu : unit ≤ 16)
    (h : decRom lo hi unit .none = .ok p) (s : State) : Inv (succeed (putCountLit p (clearOutputs s))) := by
  have hle := decRom_le hu h
  have hlit := decRom_ok h
  exact inv_putCountLit (hlit ▸ wfLiteral_renderRom _) hle (hlit ▸ parseLit_renderRom hle _) s

theorem inv_result {i : Instr} {s : State} {w : State → State} (h : result i s = some (.ok w)) :
    Inv (succeed (w (clearOutputs s))) := by
  cases i with simp only [result, Option.map_eq_some_iff, Option.bind_eq_some_iff, map_eq_ok, Except.ok.injEq] at h
  | encode =>
    obtain ⟨r, -, buf, hbuf, rfl⟩ := h
    exact inv_putBuffer (encodeRecord_shape hbuf) s
  | decode =>
    obtain ⟨b, -, q, hq, rfl⟩ := h
    exact inv_putRecord (decodeBuffer_normalForm hq) s
  | parseSize =>
    obtain ⟨l, -, n, -, rfl⟩ := h
    exact inv_succeed (by simp) (by simp) (by simp)
  | encRomSizePrg | encRomSizeChr =>
    obtain ⟨n, -, p, -, rfl⟩ := h
    exact inv_succeed (by simp) (by simp) (by simp)
  | decRomSizePrg | decRomSizeChr =>
    obtain ⟨lo, -, hi, -, p, hp, rfl⟩ := h
    exact inv_decRom (by decide) hp s
  | encRamSize =>
    obtain ⟨n, -, c, -, rfl⟩ := h
    exact inv_succeed (by simp) (by simp) (by simp)
  | decRamSize =>
    obtain ⟨c, -, rfl⟩ := h
    exact inv_putCountLit (wfLiteral_renderRam _) (ramCount_le c) (parseLit_renderRam (ramCount_le c) _) s

/-- Every command ends with the invariant, whatever state it starts from. -/
theorem inv_exec {i : Instr} {s t : State} (h : exec i s = .next t) : Inv t := by
  rcases exec_next h with ⟨w, hw, rfl⟩ | ⟨e, he, rfl⟩
  · exact inv_result hw
  · exact inv_raise (result_error he).2 s

theorem inv_runCommand {c : Byte} {s t : State} (h : runCommand c s = .next t) : Inv t := by
  rcases runCommand_cases c s with ⟨i, -, hrun⟩ | ⟨-, hrun⟩
  · exact inv_exec (hrun ▸ h)
  · rw [hrun] at h
    cases h
    exact inv_raise (show (illegalErr c).detail ≠ .noDetail from Detail.noConfusion) _

/-! ### The host's other actions -/

theorem SameOutputs.output {s t : State} (h : SameOutputs s t) (o : OutReg) : t.output o = s.output o := by
  obtain ⟨outBuf, outRec, outCount, outLit, outLo, outHi, outCode⟩ := h
  cases o <;> simp only [State.output, *]

/-- The invariant speaks of CMD, STATUS, ERR_DETAIL, the outputs and WB alone. -/
theorem Inv.of_same {s t : State} (hs : Inv s) (cmd : t.cmd = s.cmd) (status : t.status = s.status)
    (detail : t.errDetail = s.errDetail) (outs : SameOutputs s t) (wb : t.wb = s.wb) : Inv t where
  status := by rw [status, detail]; exact hs.status
  outputs h o := by rw [outs.output, hs.outputs (status ▸ h)]
  idle h := cmd.trans (hs.idle (status ▸ h))
  literal l h := by rw [outs.outCount]; exact hs.literal l (outs.outLit ▸ h)
  record q h := hs.record q (outs.outRec ▸ h)
  buffer b h := by rw [wb]; exact hs.buffer b (outs.outBuf ▸ h)

theorem inv_writeInput {s : State} (hs : Inv s) (w : InputWrite) : Inv (writeInput w s) :=
  hs.of_same (writeInput_cmd w s) (writeInput_status w s) (writeInput_errDetail w s) (writeInput_sameOutputs w s)
    (writeInput_wb w s)

theorem Inv.withPending {s : State} (hs : Inv s) (rest : List HostAction) : Inv { s with pending := rest } :=
  hs.of_same rfl rfl rfl ⟨rfl, rfl, rfl, rfl, rfl, rfl, rfl⟩ rfl

theorem inv_resetBlock (s : State) : Inv (resetBlock s) where
  status := .idle
  outputs _ o := by cases o <;> rfl
  idle _ := rfl
  literal l h := by cases h
  record q h := by cases h
  buffer b h := by cases h

/-- Settles O40, by the cases of a step: a CMD write and a reset establish the invariant afresh, the others keep it. -/
theorem everyStepKeepsInv : Obligations.EveryStepKeepsInv := by
  unfold Obligations.EveryStepKeepsInv
  intro s t hs h
  rcases step_next h with ⟨-, rfl⟩ | ⟨w, rest, -, rfl⟩ | ⟨c, rest, -, hrun⟩ | ⟨r, rest, -, rfl⟩ |
    ⟨r, rest, v, -, -, rfl⟩ | ⟨rest, -, rfl⟩
  · exact hs
  · exact inv_writeInput (hs.withPending rest) w
  · exact inv_runCommand hrun
  · exact hs.withPending rest
  · exact hs.withPending rest
  · exact inv_resetBlock _

end Sys2Proof.Machine
end

section
/-!
PROOF. How a command ends (R99, R201, R205), by its two ends: a computation that succeeds gives the frame, STATUS OK and
exactly the command's outputs, one that fails the frame and one of the command's own errors.
-/
namespace Sys2Proof.Machine

/-- The end of a command whose computation succeeds (R99). -/
theorem exec_succeeds {i : Instr} {s : State} {w : State → State} (h : result i s = some (.ok w)) :
    exec i s = .next (succeed (w (clearOutputs s))) ∧ CommandFrame s (succeed (w (clearOutputs s))) ∧
      EndsOk (succeed (w (clearOutputs s))) ∧ OutputsExactly (writes i) (succeed (w (clearOutputs s))) :=
  have writer := result_writer h
  ⟨exec_of_result h, writer.succeed_frame s, endsOk_succeed _, writer.succeed_outputs s⟩

/-- The end of a command whose computation fails (R205). -/
theorem exec_raises {i : Instr} {s : State} {e : Err} (h : result i s = some (.error e)) :
    exec i s = .next (raise e (clearOutputs s)) ∧ CommandFrame s (raise e (clearOutputs s)) ∧
      EndsInError (raise e (clearOutputs s)) e.kind e.field e.detail :=
  ⟨exec_of_result h, raise_frame e s, raise_endsInError e s⟩

/-- Settles O10, by the two ends of a command; `result_error` lists the kinds and `result_writer` what is held. -/
theorem commandsEndOkOrInOneOfTheirErrors : Obligations.CommandsEndOkOrInOneOfTheirErrors := by
  unfold Obligations.CommandsEndOkOrInOneOfTheirErrors
  intro i s t h
  rcases exec_next h with ⟨w, hw, rfl⟩ | ⟨e, he, rfl⟩
  · obtain ⟨-, frame, ok, outs⟩ := exec_succeeds hw
    have writer := result_writer hw
    exact ⟨frame, .inl ⟨ok, outs, fun hi => writer.wb hi _, writer.freeIdx _⟩⟩
  · obtain ⟨-, frame, ends⟩ := exec_raises he
    obtain ⟨hkind, hdetail⟩ := result_error he
    exact ⟨frame, .inr ⟨e.kind, hkind, e.field, e.detail, hdetail, ends⟩⟩

end Sys2Proof.Machine
end

section
/-!
PROOF. The results of the Size Codec commands (R100 to R112) and the renderings (R120, R121, R123). Each command's
computation is split along the forms its rule names, and each form ends in `exec_succeeds` or `exec_raises`.
-/
namespace Sys2Proof.Machine

theorem detail_ofNat_toNat (n : BitVec 64) : Detail.ofNat n.toNat = .num n :=
  congrArg Detail.num (BitVec.ofNat_toNat _ n)

theorem maxCount_eq : maxCount = 2 ^ Config.bytecountW - 1 := rfl

/-! ### PARSE_SIZE -/

/-- `Digits` in the byte ranges of R73. -/
theorem digits_iff {d : Literal} : Digits d ↔ d ≠ [] ∧ ∀ c ∈ d, 0x30 ≤ c.toNat ∧ c.toNat ≤ 0x39 := by
  have all : d.all isDigitByte = true ↔ ∀ c ∈ d, 0x30 ≤ c.toNat ∧ c.toNat ≤ 0x39 := by simp [isDigitByte]
  exact ⟨fun h => ⟨h.ne, all.mp h.all⟩, fun ⟨hne, h⟩ => ⟨hne, all.mpr h⟩⟩

/-- The first digit weighs a power of ten for every digit after it. -/
theorem decValue_cons (c : Byte) (d : Literal) :
    decValue (c :: d) = (c.toNat - 0x30) * 10 ^ d.length + decValue d := by
  induction d using List.reverseRecOn with
  | nil => simp [decValue]
  | append_singleton d x ih =>
    rw [← List.cons_append, decValue_append, ih, decValue_append, List.length_append, List.length_singleton, pow_succ]
    ring

theorem digitSum_cons (c : Byte) (d : Literal) :
    digitSum (c :: d) = (c.toNat - 0x30) * 10 ^ d.length + digitSum d := by
  refine (Fin.sum_univ_succ (n := d.length) _).trans (congrArg _ (Finset.sum_congr rfl fun i _ => ?_))
  have weight : (c :: d).length - 1 - (i.val + 1) = d.length - 1 - i.val := by rw [List.length_cons]; omega
  exact congrArg (fun k => (d[i].toNat - 0x30) * 10 ^ k) weight

/-- The model's left-to-right value is the sum R100 writes. -/
theorem digitSum_eq_decValue (d : Literal) : digitSum d = decValue d := by
  induction d with
  | nil => rfl
  | cons c d ih => rw [digitSum_cons, decValue_cons, ih]

/-- ParseLit refuses a literal whose digit portion is no digit string (R100). -/
theorem parseLit_of_not_digits {s : Literal} (h : ¬ Digits (splitSuffix s).1) (f : FieldId) :
    parseLit s f = .error ⟨.invalidLiteral, f, .text s⟩ := by
  unfold parseLit
  by_cases hne : (splitSuffix s).1 = []
  · exact if_pos hne
  · have hall : ¬ (splitSuffix s).1.all isDigitByte = true := fun hall => h ⟨hne, hall⟩
    simp [hne, hall]

/-- PARSE_SIZE of a digit string with a suffix: the digits are checked first, the product second (R100). -/
theorem parseSize_of_digits {s : State} {d suf : Literal} {m : Nat} (hd : Digits d) (hsuf : (suf, m) ∈ suffixes)
    (hlit : s.inLit = some (d ++ suf)) :
    ∃ t, exec .parseSize s = .next t ∧ CommandFrame s t ∧
      if 2 ^ Config.bytecountW - 1 < digitSum d then EndsInError t .invalidLiteral .none (.text (d ++ suf))
      else if 2 ^ Config.bytecountW - 1 < digitSum d * m then EndsInError t .overflow .none (.text (d ++ suf))
      else EndsOk t ∧ OutputsExactly [.outCount] t ∧ ∃ n, t.outCount = some n ∧ n.toNat = digitSum d * m := by
  have hres : result .parseSize s = some ((parseLit (d ++ suf) .none).map putCount) := by simp [result, hlit]
  rw [parseLit_append hd hsuf, ← digitSum_eq_decValue, maxCount_eq] at hres
  by_cases hbig : 2 ^ Config.bytecountW - 1 < digitSum d
  · simp only [if_pos hbig] at hres ⊢
    exact ⟨_, exec_raises hres⟩
  · by_cases hover : 2 ^ Config.bytecountW - 1 < digitSum d * m
    · simp only [if_neg hbig, if_pos hover] at hres ⊢
      exact ⟨_, exec_raises hres⟩
    · simp only [if_neg hbig, if_neg hover] at hres ⊢
      obtain ⟨hexec, frame, ok, outs⟩ := exec_succeeds hres
      exact ⟨_, hexec, frame, ok, outs, _, rfl, count_toNat (Nat.not_lt.mp hover)⟩

/-- Settles O16, by whether the literal's digit portion is a digit string. -/
theorem parseSizeResult : Obligations.ParseSizeResult := by
  unfold Obligations.ParseSizeResult
  intro s lit hlit
  by_cases hd : Digits (splitSuffix lit).1
  · obtain ⟨suf, heq, hsuf⟩ := splitSuffix_eq lit
    obtain ⟨t, hexec, frame, ends⟩ := parseSize_of_digits hd hsuf (heq ▸ hlit)
    rw [← heq] at ends
    obtain ⟨hne, hbytes⟩ := digits_iff.mp hd
    exact ⟨t, hexec, frame, .inl ⟨_, suf, _, heq, hne, hbytes, hsuf, ends⟩⟩
  · have hres : result .parseSize s = some ((parseLit lit .none).map putCount) := by simp [result, hlit]
    rw [parseLit_of_not_digits hd] at hres
    obtain ⟨hexec, frame, ends⟩ := exec_raises hres
    refine ⟨_, hexec, frame, .inr ⟨fun d suf m heq hne hbytes hsuf => hd ?_, ends⟩⟩
    have digits : Digits d := digits_iff.mpr ⟨hne, hbytes⟩
    rw [heq, splitSuffix_append digits hsuf]
    exact digits

/-! ### ENC_ROM_SIZE and DEC_ROM_SIZE -/

/-- Both ROM encode commands are EncRom with a unit of their own (R104, R105). -/
theorem result_romEncoder {i : Instr} {l : Nat} (h : (i, l) ∈ romEncoders) {s : State} {n : ByteCount}
    (hn : s.inCount = some n) :
    ∃ unit, l = 1024 * unit ∧ writes i = [.outLo, .outHi] ∧
      result i s = some ((encRom n.toNat unit .none).map putLoHi) := by
  simp only [romEncoders, List.mem_cons, Prod.mk.injEq, List.not_mem_nil, or_false] at h
  rcases h with ⟨rfl, rfl⟩ | ⟨rfl, rfl⟩
  · exact ⟨Config.prgUnit, rfl, rfl, by simp [result, hn]⟩
  · exact ⟨Config.chrUnit, rfl, rfl, by simp [result, hn]⟩

/-- Both ROM decode commands are DecRom with a unit of their own (R107, R108). -/
theorem result_romDecoder {i : Instr} {l : Nat} (h : (i, l) ∈ romDecoders) {s : State} {lo : Byte} {hi : Nibble}
    (hlo : s.inLo = some lo) (hhi : s.inHi = some hi) :
    ∃ unit, unit ≤ 16 ∧ l = 1024 * unit ∧ writes i = [.outCount, .outLit] ∧
      result i s = some ((decRom lo hi unit .none).map putCountLit) := by
  simp only [romDecoders, List.mem_cons, Prod.mk.injEq, List.not_mem_nil, or_false] at h
  rcases h with ⟨rfl, rfl⟩ | ⟨rfl, rfl⟩
  · exact ⟨Config.prgUnit, by decide, rfl, rfl, by simp [result, hlo, hhi]⟩
  · exact ⟨Config.chrUnit, by decide, rfl, rfl, by simp [result, hlo, hhi]⟩

/-- The two fields of a linear unit count (R70, R102). -/
theorem linearFields_toNat {u : Nat} (h : u ≤ Config.linearMax) :
    ((BitVec.ofNat 12 u).extractLsb' 0 8).toNat = u % 256 ∧ ((BitVec.ofNat 12 u).extractLsb' 8 4).toNat = u / 256 := by
  have : u ≤ 0xEFF := h
  simp only [BitVec.extractLsb'_toNat, BitVec.toNat_ofNat, Nat.shiftRight_eq_div_pow]
  omega

/-- Settles O17, by the linear form and then by the search for the exponent form. -/
theorem encRomSizeResult : Obligations.EncRomSizeResult := by
  unfold Obligations.EncRomSizeResult
  intro s i l n hi hn
  obtain ⟨unit, rfl, hwrites, hres⟩ := result_romEncoder hi hn
  by_cases hlin : n.toNat % (1024 * unit) = 0 ∧ n.toNat / (1024 * unit) ≤ Config.linearMax
  · rw [encRom_linear hlin] at hres
    obtain ⟨hexec, frame, ok, outs⟩ := exec_succeeds hres
    obtain ⟨hlo, hhi⟩ := linearFields_toNat hlin.2
    refine ⟨_, hexec, frame, ?_⟩
    rw [if_pos hlin]
    exact ⟨ok, hwrites ▸ outs, _, _, rfl, rfl, hlo, hhi⟩
  · cases hsearch : searchExp n.toNat with
    | some p =>
      obtain ⟨e, m⟩ := p
      obtain ⟨he, hm, hcount⟩ := searchExp_some.mp hsearch
      have he63 : e ≤ 63 := he.trans (by decide)
      rw [encRom_exp hlin hsearch] at hres
      obtain ⟨hexec, frame, ok, outs⟩ := exec_succeeds hres
      refine ⟨_, hexec, frame, ?_⟩
      rw [if_neg hlin]
      exact .inl ⟨e, m, he, hm, hcount.symm, ok, hwrites ▸ outs, _, rfl, rfl, expByte_toNat he63 hm⟩
    | none =>
      rw [encRom_none hlin hsearch, detail_ofNat_toNat] at hres
      obtain ⟨hexec, frame, ends⟩ := exec_raises hres
      refine ⟨_, hexec, frame, ?_⟩
      rw [if_neg hlin]
      exact .inr ⟨fun e m he hm hcount => searchExp_none.mp hsearch e m he hm hcount.symm, ends⟩

/-- The count of a pair DecRom accepts, by the form its high nibble selects (R106). -/
theorem decRom_count {lo : Byte} {hi : Nibble} {unit : Nat} {f : FieldId} {p : Nat × Literal}
    (h : decRom lo hi unit f = .ok p) :
    p.1 = if hi = 0xF#4 then 2 ^ (lo.toNat / 4) * (2 * (lo.toNat % 4) + 1)
      else (256 * hi.toNat + lo.toNat) * (1024 * unit) := by
  by_cases hf : hi = 0xF#4
  · subst hf
    rw [decRom_exp] at h
    split at h <;> cases h
    rfl
  · rw [decRom_linear hf] at h
    cases h
    rw [if_neg hf, nibble_append_toNat, Nat.mul_assoc]

/-- Settles O18: DecRom fails exactly on an exponent that is too large; its count fits the register. -/
theorem decRomSizeResult : Obligations.DecRomSizeResult := by
  unfold Obligations.DecRomSizeResult
  intro s i l lo hi hi' hlo hhi
  obtain ⟨unit, hunit, rfl, hwrites, hres⟩ := result_romDecoder hi' hlo hhi
  cases hdec : decRom lo hi unit .none with
  | error e =>
    obtain ⟨hf, hexp, rfl⟩ := decRom_error hdec
    rw [hdec] at hres
    obtain ⟨hexec, frame, ends⟩ := exec_raises hres
    refine ⟨_, hexec, frame, ?_⟩
    rw [if_pos ⟨hf, hexp⟩]
    exact ends
  | ok p =>
    have hfits : ¬ (hi = 0xF#4 ∧ Config.expDecMax < lo.toNat / 4) := by
      rintro ⟨rfl, hexp⟩
      rw [decRom_exp, if_pos hexp] at hdec
      cases hdec
    have hnum := count_toNat (decRom_le hunit hdec)
    rw [hdec] at hres
    obtain ⟨hexec, frame, ok, outs⟩ := exec_succeeds hres
    refine ⟨_, hexec, frame, ?_⟩
    rw [if_neg hfits]
    refine ⟨ok, hwrites ▸ outs, _, rfl, ?_, hnum.trans (decRom_count hdec)⟩
    rw [hnum]
    exact congrArg some (decRom_ok hdec)

/-! ### ENC_RAM_SIZE and DEC_RAM_SIZE -/

/-- The count of a shift count, as a product (R72). -/
theorem ramCount_eq (c : Nibble) : ramCount c = if c.toNat = 0 then 0 else 64 * 2 ^ c.toNat := by
  revert c
  decide

/-- Settles O19: EncRam accepts exactly the counts of the sixteen shift counts. -/
theorem encRamSizeIsTheShiftForm : Obligations.EncRamSizeIsTheShiftForm := by
  unfold Obligations.EncRamSizeIsTheShiftForm
  intro s n hn
  have hres : result .encRamSize s = some ((encRam n.toNat .none).map putCode) := by simp [result, hn]
  cases henc : encRam n.toNat .none with
  | ok c =>
    have hcount : n.toNat = ramCount c := encRam_ok.mp henc
    rw [ramCount_eq] at hcount
    rw [henc] at hres
    obtain ⟨hexec, frame, ok, outs⟩ := exec_succeeds hres
    by_cases h0 : c.toNat = 0
    · obtain rfl : c = 0 := BitVec.eq_of_toNat_eq h0
      exact ⟨_, hexec, frame, .inl ⟨hcount, ok, outs, rfl⟩⟩
    · rw [if_neg h0] at hcount
      have hcode : c = BitVec.ofNat 4 c.toNat := (BitVec.ofNat_toNat 4 c).symm
      exact ⟨_, hexec, frame, .inr (.inl ⟨c.toNat, by omega, by omega, hcount, ok, outs, congrArg some hcode⟩)⟩
  | error e =>
    have hno : ∀ c, n.toNat ≠ ramCount c := fun c hc => by
      rw [encRam_ok.mpr hc] at henc
      cases henc
    rw [henc, encRam_error henc, detail_ofNat_toNat] at hres
    obtain ⟨hexec, frame, ends⟩ := exec_raises hres
    refine ⟨_, hexec, frame, .inr (.inr ⟨hno 0, fun c h1 h15 hcount => hno (BitVec.ofNat 4 c) ?_, ends⟩)⟩
    have hc : (BitVec.ofNat 4 c).toNat = c := by
      rw [BitVec.toNat_ofNat]
      omega
    rw [ramCount_eq, hc, if_neg (by omega), hcount]

/-- Settles O20: DecRam is total, and its count fits the register. -/
theorem decRamSizeNeverFails : Obligations.DecRamSizeNeverFails := by
  unfold Obligations.DecRamSizeNeverFails
  intro s c hc
  have hres : result .decRamSize s = some (.ok (putCountLit (decRam c))) := by simp [result, hc]
  obtain ⟨hexec, frame, ok, outs⟩ := exec_succeeds hres
  have hnum := count_toNat (ramCount_le c)
  refine ⟨_, hexec, frame, ok, outs, _, rfl, hnum.trans (ramCount_eq c), ?_⟩
  exact congrArg (fun k => some (renderRam k)) hnum.symm

/-! ### Renderings -/

/-- RenderRom takes the largest unit that divides the count (R120). -/
theorem renderRom_largest_unit {n : Nat} (h : 0 < n) :
    ∃ m suf, (suf, m) ∈ suffixes ∧ n % m = 0 ∧ renderRom n = decStr (n / m) ++ suf ∧
      ∀ p ∈ suffixes, n % p.2 = 0 → p.2 ≤ m := by
  have h0 : n ≠ 0 := by omega
  by_cases hM : n % 1048576 = 0
  · exact ⟨1048576, [0x4D#8], by simp [suffixes], hM, by simp [renderRom, h0, hM], by simp [suffixes]⟩
  · by_cases hK : n % 1024 = 0
    · exact ⟨1024, [0x4B#8], by simp [suffixes], hK, by simp [renderRom, h0, hM, hK], by simp [suffixes, hM]⟩
    · exact ⟨1, [], by simp [suffixes], Nat.mod_one n, by simp [renderRom, h0, hM, hK], by simp [suffixes, hM, hK]⟩

/-- RenderRam takes K for a whole number of them and bytes otherwise (R121). -/
theorem renderRam_unit (n : Nat) :
    ∃ m suf, (suf, m) ∈ suffixes ∧ m ≤ 1024 ∧ n % m = 0 ∧ renderRam n = decStr (n / m) ++ suf ∧
      (n % 1024 = 0 → m = 1024) := by
  by_cases hK : n % 1024 = 0
  · exact ⟨1024, [0x4B#8], by simp [suffixes], le_rfl, hK, by simp [renderRam, hK], fun _ => rfl⟩
  · exact ⟨1, [], by simp [suffixes], by decide, Nat.mod_one n, by simp [renderRam, hK], fun h => absurd h hK⟩

/-- Settles O23, by the unit each rendering takes. -/
theorem renderingsUseTheirUnits : Obligations.RenderingsUseTheirUnits := by
  unfold Obligations.RenderingsUseTheirUnits
  exact ⟨rfl, fun _ h => renderRom_largest_unit h, renderRam_unit⟩

/-- Settles O42: every count a decode answers fits, and a rendering of a count that fits parses back. -/
theorem renderingsParseBack : Obligations.RenderingsParseBack := by
  unfold Obligations.RenderingsParseBack
  refine ⟨fun lo hi unit n lit f g hunit hdec => ?_, fun c g => ?_, fun n => ?_⟩
  · have hle : unit ≤ 16 := by rcases hunit with rfl | rfl <;> decide
    exact parseLit_renderRom (decRom_le hle hdec) g
  · exact parseLit_renderRam (ramCount_le c) g
  · exact ⟨wfLiteral_renderRom n, wfLiteral_renderRam n⟩

end Sys2Proof.Machine
end

section
/-!
PROOF. ENCODE (R140 to R151). `errOf_encodeRecord` says once which error it ends in: the first of the checks in their
order. When none fails, the buffer is the packed one, and each of its bytes is read as a number.
-/
namespace Sys2Proof.Machine

/-! ### Computations as checks -/

/-- After a check whose value decides no later error, the errors of the rest come second. -/
theorem errOf_bind {α β : Type} {x : Except Err α} {f : α → Except Err β} {o : Option Err} (h : ∀ a, errOf (f a) = o) :
    errOf (x >>= f) = (errOf x).or o := by
  cases x with
  | ok a => exact (h a).trans (Option.none_or).symm
  | error e => rfl

theorem errOf_eq_none {α : Type} {x : Except Err α} : errOf x = none ↔ ∃ a, x = .ok a := by
  cases x <;> simp

theorem errOf_eq_some {α : Type} {x : Except Err α} {e : Err} : errOf x = some e ↔ x = .error e := by
  cases x <;> simp

/-! ### The checks of ENCODE -/

/-- The end of an ENCODE whose record packs. -/
theorem encode_succeeds {s : State} {r : Record} {buf : Buffer} (hs : s.inRec = some r) (h : encodeRecord r = .ok buf) :
    exec .encode s = .next (succeed (putBuffer buf (clearOutputs s))) ∧
      CommandFrame s (succeed (putBuffer buf (clearOutputs s))) ∧ EndsOk (succeed (putBuffer buf (clearOutputs s))) ∧
      OutputsExactly [.outBuf] (succeed (putBuffer buf (clearOutputs s))) :=
  exec_succeeds (i := .encode) (by simp [result, hs, h])

/-- The end of an ENCODE whose record does not pack. -/
theorem encode_raises {s : State} {r : Record} {e : Err} (hs : s.inRec = some r) (h : encodeRecord r = .error e) :
    exec .encode s = .next (raise e (clearOutputs s)) ∧ CommandFrame s (raise e (clearOutputs s)) ∧
      EndsInError (raise e (clearOutputs s)) e.kind e.field e.detail :=
  exec_raises (by simp [result, hs, h])

theorem errOf_checkMapper (r : Record) :
    errOf (checkMapper r) = if 0xFFF < r.mapper.toNat then some ⟨.mapperTooLarge, .mapper, .num r.mapper⟩ else none := by
  rw [checkMapper, detail_ofNat_toNat]
  split <;> rfl

theorem errOf_checkSubmapper (r : Record) :
    errOf (checkSubmapper r) = if 0xF < (r.submapper.getD 0).toNat then
      some ⟨.submapperTooLarge, .submapper, .num (r.submapper.getD 0)⟩ else none := by
  rw [checkSubmapper, detail_ofNat_toNat, submapperOf]
  split <;> rfl

/-- ENCODE ends in the first failing check of its order (R140, R208). -/
theorem errOf_encodeRecord (r : Record) : errOf (encodeRecord r) = (encodeChecks r).findSome? id := by
  have first : ∀ (o : Option Err) (os : List (Option Err)), (o :: os).findSome? id = o.or (os.findSome? id) := by
    rintro (_ | e) os <;> rfl
  simp only [encodeRecord, packRomSizes, packRamSizes, bind_assoc, pure_bind, encodeChecks, first, List.findSome?_nil,
    ← errOf_checkMapper, ← errOf_checkSubmapper]
  exact errOf_bind fun _ => errOf_bind fun _ => errOf_bind fun _ => errOf_bind fun _ =>
    errOf_bind fun _ => errOf_bind fun _ => errOf_bind fun _ => errOf_bind fun _ => rfl

/-- The error ENCODE ends in is that of one of its checks. -/
theorem mem_encodeChecks_of_error {r : Record} {e : Err} (h : encodeRecord r = .error e) : some e ∈ encodeChecks r := by
  rw [← errOf_eq_some, errOf_encodeRecord] at h
  obtain ⟨o, ho, rfl⟩ := List.exists_of_findSome?_eq_some h
  exact ho

theorem statusKind_statusError (k : ErrKind) (f : FieldId) : statusKind (statusError k f) = k.code := by
  cases k <;> cases f <;> rfl

/-- No RAM-class field raises an error of the mapper or of the submapper. -/
theorem ramField_kind {x : Option Literal} {f : FieldId} {e : Err} (h : errOf (ramField x f) = some e) :
    e.kind.code ≠ 1 ∧ e.kind.code ≠ 2 := by
  obtain ⟨hkind, -, -⟩ := ramField_error (errOf_eq_some.mp h)
  have : ∀ k ∈ [ErrKind.invalidRamSize, .invalidLiteral, .overflow], k.code ≠ 1 ∧ k.code ≠ 2 := by decide
  exact this _ hkind

/-- Settles O30, by the two checks in their place of the order; after them only the RAM-class fields can fail. -/
theorem mapperAndSubmapperChecks : Obligations.MapperAndSubmapperChecks := by
  unfold Obligations.MapperAndSubmapperChecks
  intro s r p c hs hp hc
  by_cases hmap : 0xFFF < r.mapper.toNat
  · have henc : encodeRecord r = .error ⟨.mapperTooLarge, .mapper, .num r.mapper⟩ := by
      rw [← errOf_eq_some, errOf_encodeRecord, encodeChecks, hp, hc, if_pos hmap]
      rfl
    obtain ⟨hexec, -, ends⟩ := encode_raises hs henc
    exact ⟨_, hexec, by rwa [if_pos hmap]⟩
  · by_cases hsub : 0xF < (r.submapper.getD 0).toNat
    · have henc : encodeRecord r = .error ⟨.submapperTooLarge, .submapper, .num (r.submapper.getD 0)⟩ := by
        rw [← errOf_eq_some, errOf_encodeRecord, encodeChecks, hp, hc, if_neg hmap, if_pos hsub]
        rfl
      obtain ⟨hexec, -, ends⟩ := encode_raises hs henc
      exact ⟨_, hexec, by rwa [if_neg hmap, if_pos hsub]⟩
    · simp only [if_neg hmap, if_neg hsub]
      cases henc : encodeRecord r with
      | ok buf =>
        exact ⟨_, (encode_succeeds hs henc).1, show statusKind statusOk ≠ 1 ∧ statusKind statusOk ≠ 2 by decide⟩
      | error e =>
        have hkind : e.kind.code ≠ 1 ∧ e.kind.code ≠ 2 := by
          have hmem := mem_encodeChecks_of_error henc
          simp only [encodeChecks, hp, hc, errOf_ok, if_neg hmap, if_neg hsub, List.mem_cons, reduceCtorEq, false_or,
            List.not_mem_nil, or_false] at hmem
          rcases hmem with h | h | h | h <;> exact ramField_kind h.symm
        refine ⟨_, (encode_raises hs henc).1, ?_⟩
        rwa [raise_status, statusKind_statusError]

/-! ### The bytes ENCODE packs, as numbers -/

/-- Two nibbles packed into a byte. -/
theorem inLow_or_inHigh_toNat (x y : Nibble) : (inLow x ||| inHigh y).toNat = 16 * y.toNat + x.toNat := by
  revert x y
  decide

/-- Byte 6: the four flags below the mapper's lowest nibble (R56, R58, R146). -/
theorem byte6_toNat (m : Nibble) (mir : Mirroring) (bat trn : Bool) :
    (inHigh m ||| (bitIf (mir = .horizontal) 0 ||| bitIf bat 1 ||| bitIf trn 2 ||| bitIf (mir = .fourScreens) 3)).toNat =
      16 * m.toNat + (if mir = .horizontal then 1 else 0) + (if bat = true then 2 else 0) + (if trn = true then 4 else 0)
        + (if mir = .fourScreens then 8 else 0) := by
  cases mir <;> revert m bat trn <;> decide

/-- Byte 7: the marker, the console's code or the sentinel 3, the mapper's middle nibble (R59, R75, R147). -/
theorem byte7_toNat (m k : Nibble) :
    (0b10#8 ||| inHigh m ||| (if k.toNat ≤ 2 then inLow k <<< 2 else 0b11#8 <<< 2)).toNat =
      16 * m.toNat + 4 * min k.toNat 3 + 2 := by
  revert m k
  decide

/-- Byte 13: the Vs-System codes, or the nibble of an extended console, or zero (R64, R147, R149). -/
theorem byte13_toNat (con : Console) (p : VsPpu) (h : VsHardware) :
    ((if con.code.toNat ≤ 2 then 0#8 else inLow con.code) |||
      (if con = .vsSystem then inLow p.code ||| inHigh h.code else 0#8)).toNat =
      if con = .vsSystem then 16 * h.code.toNat + p.code.toNat
      else if con.code.toNat ≤ 2 then 0 else con.code.toNat := by
  by_cases hvs : con = .vsSystem
  · subst hvs
    rw [if_pos rfl, if_pos rfl, if_pos (by decide), BitVec.zero_or]
    exact inLow_or_inHigh_toNat _ _
  · rw [if_neg hvs, if_neg hvs, BitVec.or_zero, apply_ite BitVec.toNat, inLow_toNat]
    rfl

/-- The packed buffer has the layout of Part B (R54 to R64). -/
theorem headerLayout_packed {r : Record} (p c : Byte × Nibble) (a b d e : Nibble) (hmap : r.mapper.toNat ≤ 0xFFF)
    (hsub : (r.submapper.getD 0).toNat ≤ 0xF) : HeaderLayout r p c a b d e (packed r p c a b d e) := by
  obtain ⟨sig, b4, b5, b6, b7, b8, b9, b10, b11, b12, b13, b14, b15⟩ := byteAt_packed r p c a b d e
  have nibbles : ∀ k, (r.mapper.extractLsb' k 4).toNat = r.mapper.toNat / 2 ^ k % 16 := fun k => by
    rw [BitVec.extractLsb'_toNat, Nat.shiftRight_eq_div_pow]
  have num : ∀ {x y : Byte} {n : Nat}, x = y → y.toNat = n → x.toNat = n := fun hxy hn => hxy ▸ hn
  exact
    { signature := ⟨sig 0, sig 1, sig 2, sig 3⟩
      byte4 := b4
      byte5 := b5
      byte6 := num b6 (by rw [byte6_toNat, nibbles, pow_zero, Nat.div_one])
      byte7 := num b7 ((byte7_toNat _ _).trans (by rw [nibbles]; rfl))
      byte8 := num b8 (by
        have low : ((submapperOf r).extractLsb' 0 4).toNat = (r.submapper.getD 0).toNat := by
          rw [BitVec.extractLsb'_toNat, Nat.shiftRight_zero]
          exact Nat.mod_eq_of_lt (Nat.lt_succ_of_le hsub)
        rw [inLow_or_inHigh_toNat, nibbles, low]
        omega)
      byte9 := num b9 (inLow_or_inHigh_toNat _ _)
      byte10 := num b10 (inLow_or_inHigh_toNat _ _)
      byte11 := num b11 (inLow_or_inHigh_toNat _ _)
      byte12 := num b12 (BitVec.toNat_setWidth_of_le (by decide))
      byte13 := num b13 (byte13_toNat _ _ _)
      byte14 := b14
      byte15 := b15 }

/-- Settles O28: a record that passes every check is packed, and the packed buffer has the layout. -/
theorem encodeWritesTheLayout : Obligations.EncodeWritesTheLayout := by
  unfold Obligations.EncodeWritesTheLayout
  intro s r p c a b d e hs hp hc hmap hsub ha hb hd he
  have hbuf : encodeRecord r = .ok (packed r p c a b d e) :=
    encodeRecord_ok.mpr ⟨p, c, a, b, d, e, hp, hc, hmap, hsub, ha, hb, hd, he, rfl⟩
  obtain ⟨hexec, frame, ok, outs⟩ := encode_succeeds hs hbuf
  exact ⟨_, _, hexec, frame, ok, outs, rfl, rfl, headerLayout_packed p c a b d e hmap hsub⟩

end Sys2Proof.Machine
end

section
/-!
PROOF. DECODE (R160 to R173). `errOf_decodeBuffer` says once which error it ends in: the first of the checks in their
order. When none fails, `decodeBuffer_fieldsOf` gives every field of the record as a number of the buffer's bytes, and
the independence of the fields follows from it.
-/
namespace Sys2Proof.Machine

/-- The end of a DECODE whose buffer unpacks. -/
theorem decode_succeeds {s : State} {b : Buffer} {q : Record} (hs : s.inBuf = some b) (h : decodeBuffer b = .ok q) :
    exec .decode s = .next (succeed (putRecord q (clearOutputs s))) ∧
      CommandFrame s (succeed (putRecord q (clearOutputs s))) ∧ EndsOk (succeed (putRecord q (clearOutputs s))) ∧
      OutputsExactly [.outRec] (succeed (putRecord q (clearOutputs s))) :=
  exec_succeeds (i := .decode) (by simp [result, hs, h])

/-- The end of a DECODE whose buffer fails a check. -/
theorem decode_raises {s : State} {b : Buffer} {e : Err} (hs : s.inBuf = some b) (h : decodeBuffer b = .error e) :
    exec .decode s = .next (raise e (clearOutputs s)) ∧ CommandFrame s (raise e (clearOutputs s)) ∧
      EndsInError (raise e (clearOutputs s)) e.kind e.field e.detail :=
  exec_raises (by simp [result, hs, h])

/-! ### The checks of DECODE -/

/-- A check that fails exactly under a condition comes before the errors of the rest. -/
theorem errOf_bind_check {α β : Type} {c : Prop} [Decidable c] {x : Except Err α} {f : α → Except Err β} {e : Err}
    {o : Option Err} (fails : c → x = .error e) (passes : ¬ c → ∃ a, x = .ok a) (rest : ∀ a, errOf (f a) = o) :
    errOf (x >>= f) = if c then some e else o := by
  by_cases h : c
  · rw [fails h, if_pos h]
    rfl
  · obtain ⟨a, rfl⟩ := passes h
    rw [if_neg h]
    exact rest a

/-- The hardware code names no member: the gate fails (R169, R203). -/
theorem unpackVs_bad {b : Buffer} (h : consoleNumber b = 1 ∧ 6 < b[13].toNat / 16) : unpackVs b (unpackConsole b) =
    .error ⟨.invalidVariantCode, .vsHardware, .num (BitVec.ofNat 64 (b[13].toNat / 16))⟩ := by
  obtain ⟨hcon, hcode⟩ := h
  have num : (highNibble (byteAt b 13)).toNat = b[13].toNat / 16 := highNibble_toNat _
  have hnone : VsHardware.ofCode (highNibble (byteAt b 13)) = none := vsHardware_ofCode_none.mpr (num ▸ hcode)
  simp only [unpackVs, (unpackConsole_vs b).mpr hcon, if_true, hnone, num]
  rfl

/-- The gate passes for another console and for the code of a member (R169). -/
theorem unpackVs_good {b : Buffer} (h : ¬ (consoleNumber b = 1 ∧ 6 < b[13].toNat / 16)) :
    ∃ p, unpackVs b (unpackConsole b) = .ok p := by
  by_cases hcon : consoleNumber b = 1
  · cases hhw : VsHardware.ofCode (highNibble (byteAt b 13)) with
    | some hw => exact ⟨_, by simp only [unpackVs, (unpackConsole_vs b).mpr hcon, if_true, hhw]; rfl⟩
    | none =>
      have hcode : 6 < (highNibble (byteAt b 13)).toNat := vsHardware_ofCode_none.mp hhw
      exact absurd ⟨hcon, highNibble_toNat _ ▸ hcode⟩ h
  · exact ⟨_, if_neg fun hvs => hcon ((unpackConsole_vs b).mp hvs)⟩

/-- DECODE ends in the first failing check of its order (R160, R208). -/
theorem errOf_decodeBuffer (b : Buffer) : errOf (decodeBuffer b) = decodeVerdict b := by
  have prgHi : (lowNibble (byteAt b 9)).toNat = b[9].toNat % 16 := lowNibble_toNat _
  have chrHi : (highNibble (byteAt b 9)).toNat = b[9].toNat / 16 := highNibble_toNat _
  rw [decodeVerdict, ← prgHi, ← chrHi]
  have prg := decRom_split (byteAt b 4) (lowNibble (byteAt b 9)) Config.prgUnit .prgRom
  have chr := decRom_split (byteAt b 5) (highNibble (byteAt b 9)) Config.chrUnit .chrRom
  exact errOf_bind_check checkSignature_bad (fun h => ⟨_, checkSignature_ok (not_not.mp h)⟩) fun _ =>
    errOf_bind_check checkMarker_bad (fun h => ⟨_, checkMarker_ok (not_not.mp h)⟩) fun _ =>
    errOf_bind_check prg.1 prg.2 fun _ =>
    errOf_bind_check chr.1 chr.2 fun _ =>
    errOf_bind_check unpackVs_bad unpackVs_good fun _ => rfl

/-- Settles O33: the first failing check is the error the computation ends in, and the command raises it. -/
theorem decodeReportsTheFirstFailingCheck : Obligations.DecodeReportsTheFirstFailingCheck := by
  unfold Obligations.DecodeReportsTheFirstFailingCheck
  intro s b e hs hverdict
  exact ⟨_, decode_raises hs (errOf_eq_some.mp ((errOf_decodeBuffer b).trans hverdict))⟩

/-! ### The fields DECODE reads, as numbers -/

/-- The Vs-System fields are the members of byte 13's two nibbles when the console is VsSystem (R169). -/
theorem unpackVs_on {b : Buffer} {ppu : Option VsPpu} {hw : Option VsHardware}
    (h : unpackVs b (unpackConsole b) = .ok (ppu, hw)) (hcon : consoleNumber b = 1) :
    ∃ p k, ppu = some p ∧ hw = some k ∧ p.code.toNat = b[13].toNat % 16 ∧ k.code.toNat = b[13].toNat / 16 := by
  rcases unpackVs_ok h with ⟨-, rfl, k, rfl, hk⟩ | ⟨hne, -, -⟩
  · refine ⟨_, k, rfl, rfl, ?_, ?_⟩
    · rw [vsPpu_code_ofCode]
      exact lowNibble_toNat _
    · rw [hk]
      exact highNibble_toNat _
  · exact absurd ((unpackConsole_vs b).mpr hcon) hne

/-- The Vs-System fields are absent for another console (R169). -/
theorem unpackVs_off {b : Buffer} {ppu : Option VsPpu} {hw : Option VsHardware}
    (h : unpackVs b (unpackConsole b) = .ok (ppu, hw)) (hcon : consoleNumber b ≠ 1) : ppu = none ∧ hw = none := by
  rcases unpackVs_ok h with ⟨heq, -⟩ | ⟨-, hnone⟩
  · exact absurd ((unpackConsole_vs b).mp heq) hcon
  · exact hnone

theorem submapper_num (b : Buffer) : (unpackSubmapper b).toNat = b[8].toNat / 16 := by
  rw [unpackSubmapper, BitVec.toNat_setWidth_of_le (by decide)]
  exact highNibble_toNat _

theorem timing_num (b : Buffer) : (unpackTiming b).code.toNat = b[12].toNat % 4 := by
  rw [unpackTiming, timing_code_ofCode, mulField_toNat]
  rfl

theorem unpackMirroring_eq (b : Buffer) : unpackMirroring b =
    if b[6].toNat / 8 % 2 = 1 then .fourScreens else if b[6].toNat % 2 = 1 then .horizontal else .vertical := by
  obtain ⟨bit0, -, -, bit3⟩ := lsb_num (byteAt b 6)
  simp only [unpackMirroring, bit0, bit3, decide_eq_true_eq]
  rfl

/-- A record DECODE reads holds the fields of its buffer (R163 to R170). -/
theorem decodeBuffer_fieldsOf {b : Buffer} {q : Record} (h : decodeBuffer b = .ok q) : FieldsOf b q := by
  obtain ⟨-, -, pn, ps, cn, cs, ppu, hw, hp, hc, hvs, rfl⟩ := decodeBuffer_ok.mp h
  obtain ⟨-, bit1, bit2, -⟩ := lsb_num (byteAt b 6)
  exact
    { mapper := mapper_num b
      submapper := ⟨_, rfl, submapper_num b⟩
      mirroring := congrArg some (unpackMirroring_eq b)
      battery := congrArg some bit1
      trainer := congrArg some bit2
      console := ⟨_, rfl, console_number b⟩
      timing := ⟨_, rfl, timing_num b⟩
      vsOn := unpackVs_on hvs
      vsOff := unpackVs_off hvs
      prgRom := ⟨pn, hp⟩
      chrRom := ⟨cn, hc⟩
      prgRam := rfl
      prgNvram := rfl
      chrRam := rfl
      chrNvram := rfl }

/-- Settles O32: with no failing check the computation ends in a record, whose fields are the buffer's. -/
theorem decodeWritesTheFields : Obligations.DecodeWritesTheFields := by
  unfold Obligations.DecodeWritesTheFields
  intro s b hs hverdict
  obtain ⟨q, hq⟩ := errOf_eq_none.mp ((errOf_decodeBuffer b).trans hverdict)
  obtain ⟨hexec, frame, ok, outs⟩ := decode_succeeds hs hq
  exact ⟨_, q, hexec, frame, ok, outs, rfl, decodeBuffer_fieldsOf hq⟩

/-- Settles O36, by the one record a DECODE can write; an error writes none. -/
theorem decodedRecordIsInNormalForm : Obligations.DecodedRecordIsInNormalForm := by
  unfold Obligations.DecodedRecordIsInNormalForm
  intro s t q hexec hout
  rcases exec_next hexec with ⟨w, hw, rfl⟩ | ⟨e, -, rfl⟩
  · simp only [result, Option.map_eq_some_iff, map_eq_ok] at hw
    obtain ⟨b, -, q', hq, rfl⟩ := hw
    obtain rfl : q' = q := Option.some.inj hout
    have fields := decodeBuffer_fieldsOf hq
    obtain ⟨pn, hp⟩ := fields.prgRom
    obtain ⟨cn, hc⟩ := fields.chrRom
    exact ⟨decodeBuffer_normalForm hq, ⟨pn, decRom_ok hp⟩, ⟨cn, decRom_ok hc⟩, ⟨_, fields.prgRam⟩, ⟨_, fields.prgNvram⟩,
      ⟨_, fields.chrRam⟩, ⟨_, fields.chrNvram⟩⟩
  · cases hout

/-! ### Which bits decide which field -/

theorem lowNibble_congr {v w : Byte} (h : v.toNat % 16 = w.toNat % 16) : lowNibble v = lowNibble w :=
  BitVec.eq_of_toNat_eq (by rw [lowNibble_toNat, lowNibble_toNat, h])

theorem highNibble_congr {v w : Byte} (h : v.toNat / 16 = w.toNat / 16) : highNibble v = highNibble w :=
  BitVec.eq_of_toNat_eq (by rw [highNibble_toNat, highNibble_toNat, h])

theorem timing_code_inj {c c' : Timing} (h : c.code = c'.code) : c = c' := by
  simpa using congrArg Timing.ofCode h

theorem vsPpu_code_inj {p p' : VsPpu} (h : p.code = p'.code) : p = p' := by
  simpa using congrArg VsPpu.ofCode h

theorem vsHardware_code_inj {k k' : VsHardware} (h : k.code = k'.code) : k = k' := by
  simpa using congrArg VsHardware.ofCode h

/-- DecRom of the same pair gives the same literal. -/
theorem decRom_literal_inj {lo : Byte} {hi : Nibble} {unit : Nat} {f : FieldId} {l l' : Literal}
    (h : ∃ n, decRom lo hi unit f = .ok (n, l)) (h' : ∃ n, decRom lo hi unit f = .ok (n, l')) : l' = l := by
  obtain ⟨n, hn⟩ := h
  obtain ⟨n', hn'⟩ := h'
  exact (Prod.mk.inj (Except.ok.inj (hn'.symm.trans hn))).2

section
variable {b b' : Buffer} {q q' : Record} (hq : FieldsOf b q) (hq' : FieldsOf b' q')
include hq hq'

theorem FieldsOf.submapper_congr (h : b'[8].toNat / 16 = b[8].toNat / 16) : q'.submapper = q.submapper := by
  obtain ⟨v, hv, num⟩ := hq.submapper
  obtain ⟨v', hv', num'⟩ := hq'.submapper
  rw [hv, hv', BitVec.eq_of_toNat_eq (num'.trans (h.trans num.symm))]

theorem FieldsOf.console_congr (h : consoleNumber b' = consoleNumber b) : q'.console = q.console := by
  obtain ⟨c, hc, num⟩ := hq.console
  obtain ⟨c', hc', num'⟩ := hq'.console
  rw [hc, hc', console_code_inj (BitVec.eq_of_toNat_eq (num'.trans (h.trans num.symm)))]

theorem FieldsOf.timing_congr (h : b'[12].toNat % 4 = b[12].toNat % 4) : q'.timing = q.timing := by
  obtain ⟨c, hc, num⟩ := hq.timing
  obtain ⟨c', hc', num'⟩ := hq'.timing
  rw [hc, hc', timing_code_inj (BitVec.eq_of_toNat_eq (num'.trans (h.trans num.symm)))]

theorem FieldsOf.consoleNumber_congr (h : q'.console = q.console) : consoleNumber b' = consoleNumber b := by
  obtain ⟨c, hc, num⟩ := hq.console
  obtain ⟨c', hc', num'⟩ := hq'.console
  obtain rfl : c' = c := Option.some.inj (hc'.symm.trans (h.trans hc))
  exact num'.symm.trans num

theorem FieldsOf.vsPpu_congr (hcon : q'.console = q.console) (h : b'[13].toNat % 16 = b[13].toNat % 16) :
    q'.vsPpu = q.vsPpu := by
  have number := hq.consoleNumber_congr hq' hcon
  by_cases hvs : consoleNumber b = 1
  · obtain ⟨p, -, hp, -, num, -⟩ := hq.vsOn hvs
    obtain ⟨p', -, hp', -, num', -⟩ := hq'.vsOn (number.trans hvs)
    rw [hp, hp', vsPpu_code_inj (BitVec.eq_of_toNat_eq (num'.trans (h.trans num.symm)))]
  · rw [(hq.vsOff hvs).1, (hq'.vsOff (number ▸ hvs)).1]

theorem FieldsOf.vsHardware_congr (hcon : q'.console = q.console) (h : b'[13].toNat / 16 = b[13].toNat / 16) :
    q'.vsHardware = q.vsHardware := by
  have number := hq.consoleNumber_congr hq' hcon
  by_cases hvs : consoleNumber b = 1
  · obtain ⟨-, k, -, hk, -, num⟩ := hq.vsOn hvs
    obtain ⟨-, k', -, hk', -, num'⟩ := hq'.vsOn (number.trans hvs)
    rw [hk, hk', vsHardware_code_inj (BitVec.eq_of_toNat_eq (num'.trans (h.trans num.symm)))]
  · rw [(hq.vsOff hvs).2, (hq'.vsOff (number ▸ hvs)).2]

end

/-- Settles O35, by the arithmetic of each field on the bytes of its own buffer. -/
theorem decodedFieldsAreIndependent : Obligations.DecodedFieldsAreIndependent := by
  unfold Obligations.DecodedFieldsAreIndependent
  intro b b' q q' hdec hdec'
  have hq := decodeBuffer_fieldsOf hdec
  have hq' := decodeBuffer_fieldsOf hdec'
  refine ⟨fun h6 h7 h8 => ?_, hq.submapper_congr hq', fun h0 h3 => ?_, fun h => ?_, fun h => ?_, hq.console_congr hq',
    hq.timing_congr hq', hq.vsPpu_congr hq', hq.vsHardware_congr hq', fun hlo hhi => ?_, fun hlo hhi => ?_, fun h => ?_,
    fun h => ?_, fun h => ?_, fun h => ?_⟩
  · exact BitVec.eq_of_toNat_eq (by rw [hq.mapper, hq'.mapper, h6, h7, h8])
  · rw [hq.mirroring, hq'.mirroring, h0, h3]
  · rw [hq.battery, hq'.battery, h]
  · rw [hq.trainer, hq'.trainer, h]
  · have pair := hq'.prgRom
    rw [hlo, show b'[9].extractLsb' 0 4 = b[9].extractLsb' 0 4 from lowNibble_congr hhi] at pair
    exact decRom_literal_inj hq.prgRom pair
  · have pair := hq'.chrRom
    rw [hlo, show b'[9].extractLsb' 4 4 = b[9].extractLsb' 4 4 from highNibble_congr hhi] at pair
    exact decRom_literal_inj hq.chrRom pair
  · rw [hq.prgRam, hq'.prgRam, show b'[10].extractLsb' 0 4 = b[10].extractLsb' 0 4 from lowNibble_congr h]
  · rw [hq.prgNvram, hq'.prgNvram, show b'[10].extractLsb' 4 4 = b[10].extractLsb' 4 4 from highNibble_congr h]
  · rw [hq.chrRam, hq'.chrRam, show b'[11].extractLsb' 0 4 = b[11].extractLsb' 0 4 from lowNibble_congr h]
  · rw [hq.chrNvram, hq'.chrNvram, show b'[11].extractLsb' 4 4 = b[11].extractLsb' 4 4 from highNibble_congr h]

/-! ### The bits DECODE does not read -/

/-- The buffers agree on every bit DECODE reads (R171). -/
structure AgreeOnReadBits (b b' : Buffer) : Prop where
  low : ∀ i (h : i < 12), b'[i] = b[i]
  timing : b'[12].toNat % 4 = b[12].toNat % 4
  extension : b[7].toNat / 4 % 4 ≠ 0 → b[7].toNat / 4 % 4 ≠ 2 → b'[13].toNat % 16 = b[13].toNat % 16
  variant : consoleNumber b = 1 → b'[13].toNat / 16 = b[13].toNat / 16

namespace AgreeOnReadBits

variable {b b' : Buffer} (h : AgreeOnReadBits b b')
include h

theorem byteAt_eq (i : Fin 16) (hi : i.val < 12) : byteAt b' i = byteAt b i := h.low i.val hi

theorem consoleNumber_eq : consoleNumber b' = consoleNumber b := by
  unfold consoleNumber
  rw [h.low 7 (by decide)]
  by_cases hcode : b[7].toNat / 4 % 4 = 3
  · rw [if_pos hcode, if_pos hcode, h.extension (by omega) (by omega)]
  · rw [if_neg hcode, if_neg hcode]

theorem unpackConsole_eq : unpackConsole b' = unpackConsole b :=
  console_code_inj (BitVec.eq_of_toNat_eq (by rw [console_number, console_number, h.consoleNumber_eq]))

theorem unpackTiming_eq : unpackTiming b' = unpackTiming b :=
  timing_code_inj (BitVec.eq_of_toNat_eq (by rw [timing_num, timing_num, h.timing]))

/-- The gate reads byte 13 for the console VsSystem alone. -/
theorem unpackVs_eq : unpackVs b' (unpackConsole b) = unpackVs b (unpackConsole b) := by
  unfold unpackVs
  by_cases hvs : unpackConsole b = .vsSystem
  · have number : consoleNumber b = 1 := (unpackConsole_vs b).mp hvs
    have codes : b[7].toNat / 4 % 4 ≠ 0 ∧ b[7].toNat / 4 % 4 ≠ 2 := by
      unfold consoleNumber at number
      split at number <;> omega
    obtain ⟨hne0, hne2⟩ := codes
    have low : lowNibble (byteAt b' 13) = lowNibble (byteAt b 13) := lowNibble_congr (h.extension hne0 hne2)
    have high : highNibble (byteAt b' 13) = highNibble (byteAt b 13) := highNibble_congr (h.variant number)
    rw [low, high]
  · rw [if_neg hvs, if_neg hvs]

theorem checkSignature_eq : checkSignature b' = checkSignature b := by
  have sig : SignatureOk b' ↔ SignatureOk b := by
    unfold SignatureOk
    rw [h.low 0 (by decide), h.low 1 (by decide), h.low 2 (by decide), h.low 3 (by decide)]
  by_cases hsig : SignatureOk b
  · rw [checkSignature_ok hsig, checkSignature_ok (sig.mpr hsig)]
  · rw [checkSignature_bad hsig, checkSignature_bad (hsig ∘ sig.mp), h.low 0 (by decide), h.low 1 (by decide),
      h.low 2 (by decide), h.low 3 (by decide)]

/-- Each check and each field reads the bytes below 12 or a part of bytes 12 and 13 that agrees. -/
theorem decodeBuffer_eq : decodeBuffer b' = decodeBuffer b := by
  unfold decodeBuffer checkMarker markerOf unpackMapper unpackSubmapper unpackMirroring unpackBattery unpackTrainer
  dsimp only
  rw [h.checkSignature_eq, h.unpackConsole_eq, h.unpackVs_eq, h.unpackTiming_eq, h.byteAt_eq 4 (by decide),
    h.byteAt_eq 5 (by decide), h.byteAt_eq 6 (by decide), h.byteAt_eq 7 (by decide), h.byteAt_eq 8 (by decide),
    h.byteAt_eq 9 (by decide), h.byteAt_eq 10 (by decide), h.byteAt_eq 11 (by decide)]

end AgreeOnReadBits

/-- Settles O34: on buffers that agree on the bits it reads, DECODE does one computation. -/
theorem decodeIgnoresTheUnreadBits : Obligations.DecodeIgnoresTheUnreadBits := by
  unfold Obligations.DecodeIgnoresTheUnreadBits
  intro s t b b' hs hexec low timing extension variant
  have same : decodeBuffer b' = decodeBuffer b := AgreeOnReadBits.decodeBuffer_eq ⟨low, timing, extension, variant⟩
  cases hdec : decodeBuffer b with
  | ok q =>
    obtain rfl := Host.Outcome.next.inj ((decode_succeeds hs hdec).1.symm.trans hexec)
    exact ⟨_, (decode_succeeds rfl (same.trans hdec)).1, rfl, rfl, rfl⟩
  | error e =>
    obtain rfl := Host.Outcome.next.inj ((decode_raises hs hdec).1.symm.trans hexec)
    exact ⟨_, (decode_raises rfl (same.trans hdec)).1, rfl, rfl, rfl⟩

end Sys2Proof.Machine
end

section
/-!
PROOF. The two round-trip laws (R180 to R182). Every buffer ENCODE writes passes the checks of DECODE, and the record read
from it is the normal form of the record packed, up to sizes: the layout gives the bytes as numbers of the record, the
fields are read back as numbers of the bytes. ENCODE cannot tell a record from one equal to its normal form up to sizes,
so packing the decoded record gives the first buffer again.
-/
namespace Sys2Proof.Machine

/-! ### Commands that succeeded -/

/-- STATE tells a success from every error (R22). -/
theorem statusError_ne_ok (k : ErrKind) (f : FieldId) : statusError k f ≠ 0x0001#16 := by
  intro h
  have num := statusError_toNat k f
  rw [h] at num
  have one : (0x0001#16).toNat = 1 := rfl
  omega

/-- A command that ended with STATUS OK wrote what its computation gave. -/
theorem exec_ok {i : Instr} {s t : State} (h : exec i s = .next t) (hok : t.status = 0x0001#16) :
    ∃ w, result i s = some (.ok w) ∧ t = succeed (w (clearOutputs s)) := by
  rcases exec_next h with hw | ⟨e, -, rfl⟩
  · exact hw
  · exact absurd hok (statusError_ne_ok e.kind e.field)

/-- An ENCODE that ended with STATUS OK packed its record. -/
theorem encode_ok {s t : State} (h : exec .encode s = .next t) (hok : t.status = 0x0001#16) :
    ∃ r buf, s.inRec = some r ∧ encodeRecord r = .ok buf ∧ t.outBuf = some buf := by
  obtain ⟨w, hw, rfl⟩ := exec_ok h hok
  simp only [result, Option.map_eq_some_iff, map_eq_ok] at hw
  obtain ⟨r, hr, buf, hbuf, rfl⟩ := hw
  exact ⟨r, buf, hr, hbuf, rfl⟩

/-- ENCODE of a record that packs, for a host that reads its results. -/
theorem encode_writes {s : State} {r : Record} {buf : Buffer} (hs : s.inRec = some r) (h : encodeRecord r = .ok buf) :
    ∃ t, exec .encode s = .next t ∧ EndsOk t ∧ t.outBuf = some buf := by
  obtain ⟨hexec, -, ok, -⟩ := encode_succeeds hs h
  exact ⟨_, hexec, ok, rfl⟩

/-- DECODE of a buffer that unpacks, for a host that reads its results. -/
theorem decode_writes {s : State} {b : Buffer} {q : Record} (hs : s.inBuf = some b) (h : decodeBuffer b = .ok q) :
    ∃ t, exec .decode s = .next t ∧ EndsOk t ∧ t.outRec = some q := by
  obtain ⟨hexec, -, ok, -⟩ := decode_succeeds hs h
  exact ⟨_, hexec, ok, rfl⟩

/-! ### Sizes -/

/-- What a ROM-class field packs decodes to a literal of the same size (R124). -/
theorem sameSize_of_romField {s l : Literal} {unit n : Nat} {f g : FieldId} {p : Byte × Nibble} (hunit : unit ≤ 16)
    (hp : romField s unit f = .ok p) (hdec : decRom p.1 p.2 unit g = .ok (n, l)) : SameSize l s := by
  obtain ⟨n', hparse, henc⟩ := romField_ok.mp hp
  obtain ⟨rfl, rfl⟩ := Prod.mk.inj (Except.ok.inj ((decRom_encRom g henc).symm.trans hdec))
  exact ⟨n', parseLit_renderRom (encRom_le hunit henc) _, parseLit_field _ hparse⟩

/-- A RAM-class field with a shift count denotes its byte count, an absent one 0 as "0K" does (R151, R180). -/
theorem parseLit_of_ramField {x : Option Literal} {f : FieldId} {c : Nibble} (h : ramField x f = .ok c) :
    parseLit (x.getD zeroLit) .none = .ok (ramCount c) := by
  cases x with
  | none =>
    cases h
    rfl
  | some v =>
    obtain ⟨n, hparse, henc⟩ := bind_eq_ok.mp h
    rw [← encRam_ok.mp henc]
    exact parseLit_field _ hparse

/-- What a RAM-class field packs decodes to a literal of the same size (R125). -/
theorem sameSizeOpt_of_ramField {x : Option Literal} {f : FieldId} {c : Nibble} (h : ramField x f = .ok c) :
    SameSizeOpt (some (decRam c).2) (some (x.getD zeroLit)) :=
  ⟨ramCount c, parseLit_renderRam (ramCount_le c) _, parseLit_of_ramField h⟩

/-- ENCODE packs a ROM-class field by its size alone. -/
theorem romField_of_sameSize {l s : Literal} {unit : Nat} {f : FieldId} {p : Byte × Nibble} (h : SameSize l s)
    (hp : romField s unit f = .ok p) : romField l unit f = .ok p := by
  obtain ⟨n, hl, hs⟩ := h
  obtain ⟨n', hparse, henc⟩ := romField_ok.mp hp
  obtain rfl : n' = n := Except.ok.inj ((parseLit_field .none hparse).symm.trans hs)
  exact romField_ok.mpr ⟨n', parseLit_field f hl, henc⟩

/-- ENCODE packs a RAM-class field by its size alone, an absent one as "0K". -/
theorem ramField_of_sameSizeOpt {y x : Option Literal} {f : FieldId} {c : Nibble}
    (h : SameSizeOpt y (some (x.getD zeroLit))) (hc : ramField x f = .ok c) : ramField y f = .ok c := by
  cases y with
  | none => exact absurd h not_false
  | some l =>
    obtain ⟨n, hl, hx⟩ := h
    obtain rfl : ramCount c = n := Except.ok.inj ((parseLit_of_ramField hc).symm.trans hx)
    exact bind_eq_ok.mpr ⟨_, parseLit_field f hl, encRam_ok.mpr rfl⟩

/-! ### DECODE of a buffer ENCODE wrote -/

/-- The console's number stands in byte 7, or under the sentinel in byte 13 (R167). -/
theorem consoleNumber_of_layout {r : Record} {p c : Byte × Nibble} {x0 x1 x2 x3 : Nibble} {b : Buffer}
    (h : HeaderLayout r p c x0 x1 x2 x3 b) : consoleNumber b = (r.console.getD .nes).code.toNat := by
  have byte7 := h.byte7
  have byte13 := h.byte13
  have hlt := (r.console.getD .nes).code.isLt
  have code : b[7].toNat / 4 % 4 = min (r.console.getD .nes).code.toNat 3 := by omega
  rw [consoleNumber, code]
  by_cases hext : (r.console.getD .nes).code.toNat ≤ 2
  · rw [if_neg (by omega)]
    omega
  · have hvs : r.console.getD .nes ≠ .vsSystem := fun hvs => hext (by rw [hvs]; decide)
    rw [if_neg hvs, if_neg hext] at byte13
    rw [if_pos (by omega)]
    omega

/-- A buffer of ENCODE's shape names a member of the hardware codes when its console is VsSystem. -/
theorem EncodedShape.variant_ok {b : Buffer} (h : EncodedShape b) : ¬ (consoleNumber b = 1 ∧ 6 < b[13].toNat / 16) := by
  rintro ⟨hcon, hcode⟩
  have shape := h.byte13
  rw [consoleNumber] at hcon
  rw [Byte13Shape] at shape
  by_cases hext : b[7].toNat / 4 % 4 = 3
  · rw [if_pos hext] at hcon
    rw [if_neg (by omega), if_pos hext] at shape
    omega
  · rw [if_neg hext] at hcon
    rw [if_pos hcon] at shape
    omega

theorem nibbles_of_toNat {v : Byte} {x y : Nibble} (h : v.toNat = 16 * y.toNat + x.toNat) :
    lowNibble v = x ∧ highNibble v = y := by
  have hx := x.isLt
  exact ⟨BitVec.eq_of_toNat_eq (by rw [lowNibble_toNat]; omega), BitVec.eq_of_toNat_eq (by rw [highNibble_toNat]; omega)⟩

/-- A flag of weight k is k times a bit. -/
theorem ite_eq_mul_bit (c : Prop) [Decidable c] (k : Nat) : ∃ x, x ≤ 1 ∧ (if c then k else 0) = k * x ∧ (x = 1 ↔ c) := by
  by_cases h : c
  · exact ⟨1, le_rfl, by rw [if_pos h, mul_one], iff_of_true rfl h⟩
  · exact ⟨0, Nat.zero_le 1, by rw [if_neg h, mul_zero], iff_of_false Nat.zero_ne_one h⟩

/-- The four flags of byte 6 lie below the mapper's nibble and do not overlap (R56). -/
theorem bits_of_byte6 {n m : Nat} {b0 b1 b2 b3 : Prop} [Decidable b0] [Decidable b1] [Decidable b2] [Decidable b3]
    (h : n = 16 * m + (if b0 then 1 else 0) + (if b1 then 2 else 0) + (if b2 then 4 else 0) + (if b3 then 8 else 0)) :
    n / 16 = m ∧ (n % 2 = 1 ↔ b0) ∧ (n / 2 % 2 = 1 ↔ b1) ∧ (n / 4 % 2 = 1 ↔ b2) ∧ (n / 8 % 2 = 1 ↔ b3) := by
  obtain ⟨x0, le0, eq0, iff0⟩ := ite_eq_mul_bit b0 1
  obtain ⟨x1, le1, eq1, iff1⟩ := ite_eq_mul_bit b1 2
  obtain ⟨x2, le2, eq2, iff2⟩ := ite_eq_mul_bit b2 4
  obtain ⟨x3, le3, eq3, iff3⟩ := ite_eq_mul_bit b3 8
  rw [eq0, eq1, eq2, eq3] at h
  rw [← iff0, ← iff1, ← iff2, ← iff3]
  omega

section
variable {r q : Record} {p c : Byte × Nibble} {x0 x1 x2 x3 : Nibble} {b : Buffer}
  (h : HeaderLayout r p c x0 x1 x2 x3 b) (hq : FieldsOf b q)
include h hq

theorem mapper_of_layout (hmap : r.mapper.toNat ≤ 0xFFF) : q.mapper = r.mapper := by
  obtain ⟨high6, -⟩ := bits_of_byte6 h.byte6
  have byte7 := h.byte7
  have byte8 := h.byte8
  refine BitVec.eq_of_toNat_eq ?_
  rw [hq.mapper, high6]
  omega

theorem submapper_of_layout (hmap : r.mapper.toNat ≤ 0xFFF) : q.submapper = some (r.submapper.getD 0) := by
  obtain ⟨v, hv, num⟩ := hq.submapper
  have byte8 := h.byte8
  have value : v = r.submapper.getD 0 := BitVec.eq_of_toNat_eq (by omega)
  rw [hv, value]

theorem mirroring_of_layout : q.mirroring = some (r.mirroring.getD .vertical) := by
  obtain ⟨-, bit0, -, -, bit3⟩ := bits_of_byte6 h.byte6
  rw [hq.mirroring]
  simp only [bit0, bit3]
  cases r.mirroring.getD .vertical <;> rfl

theorem console_of_layout : q.console = some (r.console.getD .nes) := by
  obtain ⟨con, hcon, num⟩ := hq.console
  rw [hcon, console_code_inj (BitVec.eq_of_toNat_eq (num.trans (consoleNumber_of_layout h)))]

theorem timing_of_layout : q.timing = some (r.timing.getD .rp2c02) := by
  obtain ⟨tim, htim, num⟩ := hq.timing
  have hlt := (r.timing.getD .rp2c02).code.isLt
  have value : tim = r.timing.getD .rp2c02 := timing_code_inj (BitVec.eq_of_toNat_eq (by rw [num, h.byte12]; omega))
  rw [htim, value]

/-- Byte 13 holds both Vs-System codes for the console VsSystem, and no field otherwise (R149, R169). -/
theorem vs_of_layout : q.vsPpu = (norm r).vsPpu ∧ q.vsHardware = (norm r).vsHardware := by
  have number := consoleNumber_of_layout h
  by_cases hvs : r.console.getD .nes = .vsSystem
  · obtain ⟨ppu, hw, hppu, hhw, ppuNum, hwNum⟩ := hq.vsOn (by rw [number, hvs]; rfl)
    have byte13 := h.byte13
    rw [if_pos hvs] at byte13
    have hlt := (r.vsPpu.getD .any).code.isLt
    have ppuValue : ppu = r.vsPpu.getD .any := vsPpu_code_inj (BitVec.eq_of_toNat_eq (by omega))
    have hwValue : hw = r.vsHardware.getD .unisystemNormal := vsHardware_code_inj (BitVec.eq_of_toNat_eq (by omega))
    rw [norm, if_pos hvs, if_pos hvs, hppu, hhw, ppuValue, hwValue]
    exact ⟨rfl, rfl⟩
  · have hne : consoleNumber b ≠ 1 := fun h1 =>
      hvs (console_code_inj (BitVec.eq_of_toNat_eq (number.symm.trans h1)))
    rw [norm, if_neg hvs, if_neg hvs]
    exact hq.vsOff hne

end

/-- The fields read from the layout of r are those of r's normal form, up to sizes (R181). -/
theorem eqUpToSizes_of_layout {r q : Record} {p c : Byte × Nibble} {x0 x1 x2 x3 : Nibble} {b : Buffer}
    (h : HeaderLayout r p c x0 x1 x2 x3 b) (hq : FieldsOf b q)
    (hp : romField r.prgRom Config.prgUnit .prgRom = .ok p) (hc : romField r.chrRom Config.chrUnit .chrRom = .ok c)
    (hmap : r.mapper.toNat ≤ 0xFFF)
    (h0 : ramField r.prgRam .prgRam = .ok x0) (h1 : ramField r.prgNvram .prgNvram = .ok x1)
    (h2 : ramField r.chrRam .chrRam = .ok x2) (h3 : ramField r.chrNvram .chrNvram = .ok x3) :
    EqUpToSizes q (norm r) := by
  obtain ⟨vsPpu, vsHardware⟩ := vs_of_layout h hq
  obtain ⟨-, -, bit1, bit2, -⟩ := bits_of_byte6 h.byte6
  obtain ⟨prgHi, chrHi⟩ := nibbles_of_toNat h.byte9
  obtain ⟨ram0, ram1⟩ := nibbles_of_toNat h.byte10
  obtain ⟨ram2, ram3⟩ := nibbles_of_toNat h.byte11
  obtain ⟨pn, hpdec⟩ := hq.prgRom
  obtain ⟨cn, hcdec⟩ := hq.chrRom
  exact
    { mapper := (mapper_of_layout h hq hmap :)
      submapper := submapper_of_layout h hq hmap
      mirroring := mirroring_of_layout h hq
      battery := by simp only [hq.battery, norm, bit1, Bool.decide_eq_true]
      trainer := by simp only [hq.trainer, norm, bit2, Bool.decide_eq_true]
      console := console_of_layout h hq
      timing := timing_of_layout h hq
      vsPpu := vsPpu
      vsHardware := vsHardware
      prgRom := sameSize_of_romField (by decide) hp (by rw [← h.byte4, ← prgHi]; exact hpdec)
      chrRom := sameSize_of_romField (by decide) hc (by rw [← h.byte5, ← chrHi]; exact hcdec)
      prgRam := by rw [hq.prgRam]; exact sameSizeOpt_of_ramField (ram0 ▸ h0)
      prgNvram := by rw [hq.prgNvram]; exact sameSizeOpt_of_ramField (ram1 ▸ h1)
      chrRam := by rw [hq.chrRam]; exact sameSizeOpt_of_ramField (ram2 ▸ h2)
      chrNvram := by rw [hq.chrNvram]; exact sameSizeOpt_of_ramField (ram3 ▸ h3) }

/-- Every buffer ENCODE writes passes the checks of DECODE. -/
theorem decodeBuffer_of_encodeRecord {r : Record} {buf : Buffer} (henc : encodeRecord r = .ok buf) :
    ∃ q, decodeBuffer buf = .ok q := by
  have shape := encodeRecord_shape henc
  obtain ⟨p, c, x0, x1, x2, x3, hp, hc, hmap, hsub, -, -, -, -, hbuf⟩ := encodeRecord_ok.mp henc
  have h : HeaderLayout r p c x0 x1 x2 x3 buf := hbuf ▸ headerLayout_packed p c x0 x1 x2 x3 hmap hsub
  obtain ⟨prgHi, chrHi⟩ := nibbles_of_toNat h.byte9
  obtain ⟨pn, -, hpenc⟩ := romField_ok.mp hp
  obtain ⟨cn, -, hcenc⟩ := romField_ok.mp hc
  obtain ⟨⟨ppu, hw⟩, hvs⟩ := unpackVs_good shape.variant_ok
  have marker : markerOf buf = 0b10#2 := BitVec.eq_of_toNat_eq ((marker_num buf).trans shape.marker)
  have prg := decRom_encRom .prgRom hpenc
  have chr := decRom_encRom .chrRom hcenc
  rw [← h.byte4, ← prgHi] at prg
  rw [← h.byte5, ← chrHi] at chr
  exact ⟨_, decodeBuffer_ok.mpr ⟨shape.signature, marker, _, _, _, _, _, _, prg, chr, hvs, rfl⟩⟩

/-- R181 on the functions of the Header Codec. -/
theorem decodeBuffer_encodeRecord {r : Record} {buf : Buffer} (henc : encodeRecord r = .ok buf) :
    ∃ q, decodeBuffer buf = .ok q ∧ EqUpToSizes q (norm r) := by
  obtain ⟨q, hq⟩ := decodeBuffer_of_encodeRecord henc
  obtain ⟨p, c, x0, x1, x2, x3, hp, hc, hmap, hsub, h0, h1, h2, h3, hbuf⟩ := encodeRecord_ok.mp henc
  have layout : HeaderLayout r p c x0 x1 x2 x3 buf := hbuf ▸ headerLayout_packed p c x0 x1 x2 x3 hmap hsub
  exact ⟨q, hq, eqUpToSizes_of_layout layout (decodeBuffer_fieldsOf hq) hp hc hmap h0 h1 h2 h3⟩

/-! ### ENCODE of a record equal to a normal form -/

/-- The packing steps read r's fields through their defaults, and the Vs-System fields for VsSystem alone. -/
theorem packed_of_eqUpToSizes {q r : Record} (h : EqUpToSizes q (norm r)) (p c : Byte × Nibble) (x0 x1 x2 x3 : Nibble) :
    packed q p c x0 x1 x2 x3 = packed r p c x0 x1 x2 x3 := by
  obtain ⟨hmap, hsub, hmir, hbat, htrn, hcon, htim, hppu, hhw, -, -, -, -, -, -⟩ := h
  simp only [norm] at hmap hsub hmir hbat htrn hcon htim hppu hhw
  have vs : ∀ wb, packVs q wb = packVs r wb := fun wb => by
    unfold packVs consoleOf
    by_cases hvs : r.console.getD .nes = .vsSystem
    · rw [hcon, hppu, hhw, if_pos hvs, if_pos hvs]
      rfl
    · rw [hcon, Option.getD_some, if_neg hvs, if_neg hvs]
  unfold packed packTiming packSubmapper packConsole packFlags packMapper submapperOf consoleOf
  rw [vs, hmap, hsub, hmir, hbat, htrn, hcon, htim]
  rfl

/-- A record equal to the normal form of r up to sizes packs to the buffer of r. -/
theorem encodeRecord_of_eqUpToSizes {q r : Record} {buf : Buffer} (h : EqUpToSizes q (norm r))
    (henc : encodeRecord r = .ok buf) : encodeRecord q = .ok buf := by
  obtain ⟨p, c, x0, x1, x2, x3, hp, hc, hmap, hsub, h0, h1, h2, h3, rfl⟩ := encodeRecord_ok.mp henc
  have submapper : submapperOf q = submapperOf r := by rw [submapperOf, h.submapper]; rfl
  exact encodeRecord_ok.mpr ⟨p, c, x0, x1, x2, x3, romField_of_sameSize h.prgRom hp, romField_of_sameSize h.chrRom hc,
    h.mapper ▸ hmap, submapper ▸ hsub, ramField_of_sameSizeOpt h.prgRam h0, ramField_of_sameSizeOpt h.prgNvram h1,
    ramField_of_sameSizeOpt h.chrRam h2, ramField_of_sameSizeOpt h.chrNvram h3, packed_of_eqUpToSizes h p c x0 x1 x2 x3⟩

/-! ### The statements -/

/-- Settles O37: the buffer ENCODE wrote decodes to the normal form of its record, up to sizes. -/
theorem decodeOfEncodeIsTheNormalForm : Obligations.DecodeOfEncodeIsTheNormalForm := by
  unfold Obligations.DecodeOfEncodeIsTheNormalForm
  intro s t r hr hexec hok _
  obtain ⟨r', buf, hr', henc, hout⟩ := encode_ok hexec hok
  obtain rfl : r' = r := Option.some.inj (hr'.symm.trans hr)
  obtain ⟨q, hq, same⟩ := decodeBuffer_encodeRecord henc
  obtain ⟨u, hdec, ok, hrec⟩ := decode_writes (s := { t with inBuf := t.outBuf }) hout hq
  exact ⟨u, q, hdec, ok, hrec, same⟩

/-- Settles O38: the decoded record is the first one's normal form up to sizes, so it packs to the same buffer. -/
theorem encodeOfDecodeOfEncodeIsIdentical : Obligations.EncodeOfDecodeOfEncodeIsIdentical := by
  unfold Obligations.EncodeOfDecodeOfEncodeIsIdentical
  intro s t hexec hok
  obtain ⟨r, buf, -, henc, hout⟩ := encode_ok hexec hok
  obtain ⟨q, hq, same⟩ := decodeBuffer_encodeRecord henc
  obtain ⟨u, hdec, decOk, hrec⟩ := decode_writes (s := { t with inBuf := t.outBuf }) hout hq
  have again := encodeRecord_of_eqUpToSizes same henc
  obtain ⟨v, henc', encOk, hbuf⟩ := encode_writes (s := { u with inRec := u.outRec }) hrec again
  exact ⟨u, v, hdec, decOk, henc', encOk, hbuf.trans hout.symm⟩

end Sys2Proof.Machine
end

section
/-!
PROOF. The Size Codec laws (R8, R122 to R125): DecStr is Mathlib's base-10 digits, each command of families 1 to 3 succeeds
on its domain, and the encode and decode commands of a class undo each other where their forms are canonical.
-/
namespace Sys2Proof.Machine

/-! ### DecStr -/

/-- Each division takes off the last digit, as `Nat.digits` does. -/
theorem decDigits_eq_digits (fuel n : Nat) (h0 : 0 < n) (hn : n < 10 ^ fuel) :
    decDigits fuel n = ((Nat.digits 10 n).map digitByte).reverse := by
  induction fuel generalizing n with
  | zero =>
    rw [pow_zero] at hn
    omega
  | succ fuel ih =>
    rw [decDigits]
    by_cases hlt : n < 10
    · rw [if_pos hlt, Nat.digits_of_lt 10 n h0.ne' hlt]
      rfl
    · rw [pow_succ] at hn
      rw [if_neg hlt, ih (n / 10) (by omega) (by omega), Nat.digits_def' (by decide) h0, List.map_cons, List.reverse_cons]

/-- Settles O22: 0 is one digit, and a number above 0 has the digits `decDigits` finds. -/
theorem decStrIsDecimal : Obligations.DecStrIsDecimal := by
  unfold Obligations.DecStrIsDecimal
  intro n
  by_cases h : n = 0
  · subst h
    rfl
  · rw [if_neg h]
    exact decDigits_eq_digits (n + 1) n (Nat.pos_of_ne_zero h) (lt_ten_pow_succ n)

/-! ### The domains -/

theorem parseSize_succeeds {s : State} {d suf : Literal} {m : Nat} (hd : Digits d) (hsuf : (suf, m) ∈ suffixes)
    (hfits : digitSum d * m ≤ 2 ^ Config.bytecountW - 1) (hlit : s.inLit = some (d ++ suf)) :
    ∃ t, exec .parseSize s = .next t ∧ CommandFrame s t ∧ EndsOk t ∧ OutputsExactly [.outCount] t ∧
      t.outCount = some (BitVec.ofNat Config.bytecountW (digitSum d * m)) := by
  have hres : result .parseSize s = some ((parseLit (d ++ suf) .none).map putCount) := by simp [result, hlit]
  rw [digitSum_eq_decValue] at hfits ⊢
  rw [parseLit_append_ok hd hsuf (suffix_pos hsuf) hfits] at hres
  obtain ⟨hexec, frame, ok, outs⟩ := exec_succeeds hres
  exact ⟨_, hexec, frame, ok, outs, rfl⟩

/-- EncRom has a form for every linear and every exponent count (R102). -/
theorem encRom_has_form {n unit : Nat} (f : FieldId)
    (h : n % (1024 * unit) = 0 ∧ n / (1024 * unit) ≤ Config.linearMax ∨
      ∃ e m, e ≤ Config.expEncMax ∧ m ≤ 3 ∧ n = 2 ^ e * (2 * m + 1)) : ∃ p, encRom n unit f = .ok p := by
  by_cases hlin : n % (1024 * unit) = 0 ∧ n / (1024 * unit) ≤ Config.linearMax
  · exact ⟨_, encRom_linear hlin f⟩
  · obtain ⟨e, m, he, hm, hn⟩ := h.resolve_left hlin
    exact ⟨_, encRom_exp hlin (searchExp_some.mpr ⟨he, hm, hn.symm⟩) f⟩

/-- Settles O21, by the computation of each command, which has no error to raise on its domain. -/
theorem sizeCommandsSucceedOnTheirDomains : Obligations.SizeCommandsSucceedOnTheirDomains := by
  unfold Obligations.SizeCommandsSucceedOnTheirDomains
  refine ⟨fun s d suf m hne hbytes hsuf hfits hlit => ?_, fun s i l n hi hn hform => ?_,
    fun s i l lo hi hmem hlo hhi hexp => ?_, fun s n c hn hc hcount => ?_⟩
  · exact parseSize_succeeds (digits_iff.mpr ⟨hne, hbytes⟩) hsuf hfits hlit
  · obtain ⟨unit, rfl, hwrites, hres⟩ := result_romEncoder hi hn
    obtain ⟨p, hp⟩ := encRom_has_form .none hform
    rw [hp] at hres
    exact ⟨_, hwrites ▸ exec_succeeds hres⟩
  · obtain ⟨unit, -, rfl, hwrites, hres⟩ := result_romDecoder hmem hlo hhi
    have fits : ¬ (hi.toNat = 15 ∧ Config.expDecMax < lo.toNat / 4) := fun ⟨hF, hbig⟩ =>
      absurd (hexp (BitVec.eq_of_toNat_eq hF)) (Nat.not_le.mpr hbig)
    obtain ⟨p, hp⟩ := (decRom_split lo hi unit .none).2 fits
    rw [hp] at hres
    exact ⟨_, hwrites ▸ exec_succeeds hres⟩
  · have hc15 : c ≤ 15 := hc
    have code : (BitVec.ofNat 4 c).toNat = c := by
      rw [BitVec.toNat_ofNat]
      omega
    have henc : encRam n.toNat .none = .ok (BitVec.ofNat 4 c) := encRam_ok.mpr (by rw [hcount, ramCount_eq, code])
    have hres : result .encRamSize s = some ((encRam n.toNat .none).map putCode) := by simp [result, hn]
    rw [henc] at hres
    obtain ⟨hexec, frame, ok, outs⟩ := exec_succeeds hres
    exact ⟨_, hexec, frame, ok, outs, rfl⟩

/-! ### Literals -/

/-- Settles O24: the invariant, which every command establishes, says it of OUT_LIT. -/
theorem decodedLiteralDenotesTheCount : Obligations.DecodedLiteralDenotesTheCount := by
  unfold Obligations.DecodedLiteralDenotesTheCount
  intro i s t l hexec hlit
  exact (inv_exec hexec).literal l hlit

/-! ### ROM-class round trips -/

theorem ofNat_count_toNat (n : ByteCount) : BitVec.ofNat Config.bytecountW n.toNat = n := BitVec.ofNat_toNat _ n

/-- A ROM encode command that ended with STATUS OK wrote the pair of its count. -/
theorem romEncoder_ok {i : Instr} {l : Nat} (hi : (i, l) ∈ romEncoders) {s t : State} (h : exec i s = .next t)
    (hok : t.status = 0x0001#16) :
    ∃ n unit p, s.inCount = some n ∧ l = 1024 * unit ∧ encRom n.toNat unit .none = .ok p ∧
      t.outLo = some p.1 ∧ t.outHi = some p.2 := by
  obtain ⟨w, hw, rfl⟩ := exec_ok h hok
  simp only [romEncoders, List.mem_cons, Prod.mk.injEq, List.not_mem_nil, or_false] at hi
  rcases hi with ⟨rfl, rfl⟩ | ⟨rfl, rfl⟩
  all_goals
    simp only [result, Option.map_eq_some_iff, map_eq_ok] at hw
    obtain ⟨n, hn, p, hp, rfl⟩ := hw
    exact ⟨n, _, p, hn, rfl, hp, rfl, rfl⟩

/-- Settles O25: DecRom undoes EncRom of the same unit. -/
theorem decRomSizeUndoesEncRomSize : Obligations.DecRomSizeUndoesEncRomSize := by
  unfold Obligations.DecRomSizeUndoesEncRomSize
  intro s t i j l hi hj hexec hok
  obtain ⟨n, unit, p, hn, rfl, henc, hlo, hhi⟩ := romEncoder_ok hi hexec hok
  obtain ⟨unit', -, hunit, -, hres⟩ := result_romDecoder hj (s := { t with inLo := t.outLo, inHi := t.outHi }) hlo hhi
  obtain rfl : unit = unit' := Nat.eq_of_mul_eq_mul_left (by decide) hunit
  rw [decRom_encRom .none henc] at hres
  obtain ⟨hdec, -, ok, -⟩ := exec_succeeds hres
  exact ⟨_, hdec, ok, (congrArg some (ofNat_count_toNat n)).trans hn.symm⟩

/-- A whole number of units below the exponent form's nibble is a linear pair's own count (R70). -/
theorem encRom_linear_pair {lo : Byte} {hi : Nibble} {unit : Nat} (hunit : 0 < unit) (hne : hi ≠ 0xF#4) (f : FieldId) :
    encRom ((256 * hi.toNat + lo.toNat) * (1024 * unit)) unit f = .ok (lo, hi) := by
  have hhi : hi.toNat ≠ 15 := fun h => hne (BitVec.eq_of_toNat_eq h)
  have := hi.isLt
  have := lo.isLt
  have hmax : 256 * hi.toNat + lo.toNat ≤ Config.linearMax := by
    show _ ≤ 0xEFF
    omega
  have hpos : 0 < 1024 * unit := by omega
  have hquot := Nat.mul_div_cancel (256 * hi.toNat + lo.toNat) hpos
  obtain ⟨low, high⟩ := linearFields_toNat hmax
  rw [encRom_linear ⟨Nat.mul_mod_left _ _, hquot.trans_le hmax⟩, hquot]
  have loEq : lo = _ := BitVec.eq_of_toNat_eq (low.trans (by omega)).symm
  have hiEq : hi = _ := BitVec.eq_of_toNat_eq (high.trans (by omega)).symm
  rw [← loEq, ← hiEq]

/-- The linear form is a whole number of units up to LINEAR_MAX (R70). -/
theorem linear_iff {n unit : Nat} (hunit : 0 < unit) :
    (n % (1024 * unit) = 0 ∧ n / (1024 * unit) ≤ Config.linearMax) ↔ ∃ u, u ≤ Config.linearMax ∧ n = u * (1024 * unit) := by
  have hpos : 0 < 1024 * unit := by omega
  constructor
  · rintro ⟨hmod, hle⟩
    exact ⟨_, hle, (Nat.div_mul_cancel (Nat.dvd_of_mod_eq_zero hmod)).symm⟩
  · rintro ⟨u, hle, rfl⟩
    exact ⟨Nat.mul_mod_left _ _, by rwa [Nat.mul_div_cancel _ hpos]⟩

/-- EncRom gives an exponent pair back exactly when its exponent is searched and its count is not linear (R102). -/
theorem encRom_expCount {lo : Byte} {unit : Nat} (hunit : 0 < unit) (f : FieldId) :
    encRom (expCount (lo.toNat / 4) (lo.toNat % 4)) unit f = .ok (lo, 0xF#4) ↔
      lo.toNat / 4 ≤ Config.expEncMax ∧
        ∀ u, u ≤ Config.linearMax → expCount (lo.toNat / 4) (lo.toNat % 4) ≠ u * (1024 * unit) := by
  have hexp63 : lo.toNat / 4 ≤ 63 := by have := lo.isLt; omega
  have hmul : lo.toNat % 4 ≤ 3 := by omega
  constructor
  · intro h
    rcases encRom_ok h with ⟨-, -, hne, -⟩ | ⟨e, m, he, hm, -, -, hlo⟩
    · exact absurd rfl hne
    · refine ⟨by rw [hlo]; omega, fun u hu hcount => ?_⟩
      have hlin := (linear_iff hunit).mpr ⟨u, hu, hcount⟩
      rw [encRom_linear hlin] at h
      have hF := congrArg BitVec.toNat (Prod.mk.inj (Except.ok.inj h)).2
      have hle : expCount (lo.toNat / 4) (lo.toNat % 4) / (1024 * unit) ≤ 0xEFF := hlin.2
      rw [(linearFields_toNat hlin.2).2] at hF
      have : (0xF#4).toNat = 15 := rfl
      omega
  · rintro ⟨he, hno⟩
    have hlin : ¬ (_ ∧ _) := fun h => by
      obtain ⟨u, hu, hcount⟩ := (linear_iff hunit).mp h
      exact hno u hu hcount
    have hlo : BitVec.ofNat 8 ((lo.toNat / 4) <<< 2 ||| lo.toNat % 4) = lo :=
      BitVec.eq_of_toNat_eq (by rw [expByte_toNat hexp63 hmul]; omega)
    rw [encRom_exp hlin (searchExp_some.mpr ⟨he, hmul, rfl⟩), hlo]

/-- Settles O26, by the form the high nibble selects. -/
theorem canonicalRomPairs : Obligations.CanonicalRomPairs := by
  unfold Obligations.CanonicalRomPairs
  intro lo hi unit n lit f hunit hdec
  have hpos : 0 < unit := by rcases hunit with rfl | rfl <;> decide
  have hcount : n = _ := decRom_count hdec
  by_cases hF : hi = 0xF#4
  · subst hF
    rw [if_pos rfl] at hcount
    rw [hcount]
    refine (encRom_expCount hpos f).trans ⟨fun h => .inr ⟨rfl, h⟩, ?_⟩
    rintro (h | ⟨-, h⟩)
    · exact absurd rfl h
    · exact h
  · rw [if_neg hF] at hcount
    rw [hcount]
    exact ⟨fun _ => .inl hF, fun _ => encRom_linear_pair hpos hF f⟩

/-! ### RAM-class round trips -/

/-- ENC_RAM_SIZE of the count of a code, for a host that reads its results. -/
theorem encRamSize_writes {s : State} {n : ByteCount} {c : Nibble} (hs : s.inCount = some n) (h : n.toNat = ramCount c) :
    ∃ t, exec .encRamSize s = .next t ∧ EndsOk t ∧ t.outCode = some c := by
  have hres : result .encRamSize s = some ((encRam n.toNat .none).map putCode) := by simp [result, hs]
  rw [encRam_ok.mpr h] at hres
  exact ⟨_, exec_of_result hres, endsOk_succeed _, rfl⟩

/-- DEC_RAM_SIZE, for a host that reads its results. -/
theorem decRamSize_writes {s : State} {c : Nibble} (hs : s.inCode = some c) :
    ∃ t, exec .decRamSize s = .next t ∧ EndsOk t ∧ t.outCount = some (BitVec.ofNat Config.bytecountW (ramCount c)) := by
  have hres : result .decRamSize s = some (.ok (putCountLit (decRam c))) := by simp [result, hs]
  exact ⟨_, exec_of_result hres, endsOk_succeed _, rfl⟩

/-- Settles O27: EncRam accepts exactly the counts of the codes. -/
theorem ramSizeCommandsInvertEachOther : Obligations.RamSizeCommandsInvertEachOther := by
  unfold Obligations.RamSizeCommandsInvertEachOther
  refine ⟨fun s t hexec hok => ?_, fun s t hexec => ?_⟩
  · obtain ⟨w, hw, ht⟩ := exec_ok hexec hok
    simp only [result, Option.map_eq_some_iff, map_eq_ok] at hw
    obtain ⟨n, hn, c, hc, rfl⟩ := hw
    have hcode : t.outCode = some c := by rw [ht]; rfl
    obtain ⟨u, hdec, ok, hcount⟩ := decRamSize_writes (s := { t with inCode := t.outCode }) hcode
    exact ⟨u, hdec, ok, by rw [hcount, hn, ← encRam_ok.mp hc, ofNat_count_toNat]⟩
  · obtain ⟨w, hw, rfl⟩ | ⟨e, he, -⟩ := exec_next hexec
    · simp only [result, Option.map_eq_some_iff, Except.ok.injEq] at hw
      obtain ⟨c, hc, rfl⟩ := hw
      rw [hc]
      exact encRamSize_writes rfl (count_toNat (ramCount_le c))
    · exact absurd (result_error he).1 List.not_mem_nil

end Sys2Proof.Machine
end

section
/-!
PROOF. Two laws of ENCODE (R140, R149, R208): it ends as its checks say, and for a console other than VsSystem the packing
does not read the two Vs-System fields.
-/
namespace Sys2Proof.Machine

/-- Settles O29: the first failing check is the error the packing ends in. -/
theorem encodeReportsTheFirstFailingCheck : Obligations.EncodeReportsTheFirstFailingCheck := by
  unfold Obligations.EncodeReportsTheFirstFailingCheck
  intro s r hs
  rw [← errOf_encodeRecord]
  cases henc : encodeRecord r with
  | ok buf =>
    obtain ⟨hexec, frame, ends⟩ := encode_succeeds hs henc
    exact ⟨_, hexec, frame, ends⟩
  | error e =>
    obtain ⟨hexec, frame, ends⟩ := encode_raises hs henc
    exact ⟨_, hexec, frame, ends⟩

/-- PackVs is the one step that reads the Vs-System fields (R149). -/
theorem packVs_of_other_console {r : Record} (h : consoleOf r ≠ .vsSystem) (wb : Buffer) : packVs r wb = wb := if_neg h

theorem encodeRecord_vs_irrelevant {r : Record} (hcon : r.console.getD .nes ≠ .vsSystem) (p : Option VsPpu)
    (h : Option VsHardware) : encodeRecord { r with vsPpu := p, vsHardware := h } = encodeRecord r := by
  have hcon' : consoleOf { r with vsPpu := p, vsHardware := h } ≠ .vsSystem := hcon
  have hconr : consoleOf r ≠ .vsSystem := hcon
  simp only [encodeRecord, packVs_of_other_console hcon', packVs_of_other_console hconr]
  rfl

/-- Settles O31: both records have one packing, so both runs end in the same way. -/
theorem vsFieldsAreIgnoredForOtherConsoles : Obligations.VsFieldsAreIgnoredForOtherConsoles := by
  unfold Obligations.VsFieldsAreIgnoredForOtherConsoles
  intro s r p h hs hcon
  have same := encodeRecord_vs_irrelevant hcon p h
  cases henc : encodeRecord r with
  | ok buf => exact ⟨_, _, (encode_succeeds hs henc).1, (encode_succeeds rfl (same.trans henc)).1, rfl, rfl, rfl⟩
  | error e => exact ⟨_, _, (encode_raises hs henc).1, (encode_raises rfl (same.trans henc)).1, rfl, rfl, rfl⟩

end Sys2Proof.Machine
end

section
/-!
PROOF. The command words and the steps of the host (R13, R21, R24, R29, R50 to R52, R232 to R240): the decoder against the
encoder, what each action of the host does, and when a step stops.
-/
namespace Sys2Proof.Machine

/-! ### Command words -/

/-- The laws made once per command, for every command. -/
theorem roundTrip : (i : Instr) → Laws.RoundTrip.Statement i
  | .encode => Laws.RoundTrip.encode
  | .decode => Laws.RoundTrip.decode
  | .parseSize => Laws.RoundTrip.parseSize
  | .encRomSizePrg => Laws.RoundTrip.encRomSizePrg
  | .encRomSizeChr => Laws.RoundTrip.encRomSizeChr
  | .decRomSizePrg => Laws.RoundTrip.decRomSizePrg
  | .decRomSizeChr => Laws.RoundTrip.decRomSizeChr
  | .encRamSize => Laws.RoundTrip.encRamSize
  | .decRamSize => Laws.RoundTrip.decRamSize

/-- The field conditions of R50 leave only the rows of R51, over all 256 bytes. -/
theorem decode_of_wfWord : ∀ c : Byte, wfWord c = true → ∃ row ∈ opcodeMap, Sys2Proof.decode c = .ok row.2 := by
  decide

/-- Settles O2, by the laws of each command's word and a check of the field conditions over the 256 bytes. -/
theorem decoderAndEncoderAgree : Obligations.DecoderAndEncoderAgree := by
  unfold Obligations.DecoderAndEncoderAgree
  refine ⟨fun i => ?_, fun c i h => (eq_encode_of_decode h).symm, fun c => ⟨?_, fun h => ?_⟩⟩
  · obtain ⟨-, -, hdec, -⟩ := roundTrip i
    exact hdec
  · rintro ⟨i, h⟩
    obtain ⟨-, hwf, -, -⟩ := roundTrip i
    rwa [eq_encode_of_decode h]
  · obtain ⟨row, -, hrow⟩ := decode_of_wfWord c h
    exact ⟨row.2, hrow⟩

/-! ### CMD writes -/

theorem runCommand_of_decode {c : Byte} {i : Instr} (h : Sys2Proof.decode c = .ok i) (s : State) :
    runCommand c s = exec i { s with cmd := c } := by
  simp only [runCommand, h]

/-- Settles O4: the step takes the action off the list, and the CMD write runs the command. -/
theorem stepRunsTheDecodedCommand : Obligations.StepRunsTheDecodedCommand := by
  unfold Obligations.StepRunsTheDecodedCommand
  intro s c rest i hp hdec
  rw [step_of_pending_cons hp, hostAct_setCmd, runCommand_of_decode hdec]

/-- Only a word of one byte decodes, and it does as the byte. -/
theorem decode_of_tableWord {nbits w : Nat} {i : Instr} (h : decodeTableWord nbits w = some i) :
    Sys2Proof.decode (BitVec.ofNat 8 w) = .ok i := by
  unfold decodeTableWord at h
  split at h
  · cases hdec : Sys2Proof.decode (BitVec.ofNat 8 w) with
    | ok j =>
      rw [hdec] at h
      exact congrArg Except.ok (Option.some.inj h)
    | error e =>
      rw [hdec] at h
      cases h
  · cases h

/-- Settles O5: the word placed is the oldest action, and its command's own word is that byte. -/
theorem placedWordIsTheNextCommand : Obligations.PlacedWordIsTheNextCommand := by
  unfold Obligations.PlacedWordIsTheNextCommand
  intro s w i h
  have hdec := decode_of_tableWord h
  rw [step_of_pending_cons (s := s.withFetchWord 8 w) rfl, hostAct_setCmd, runCommand_of_decode hdec,
    eq_encode_of_decode hdec]
  rfl

/-! ### The other actions of the host -/

theorem hostReads (s : State) : HostReads s where
  cmd := rfl
  status := rfl
  errDetail := rfl
  inRec v h := by simp [State.readReg, State.input, h]
  inBuf v h := by simp [State.readReg, State.input, h]
  inLit v h := by simp [State.readReg, State.input, h]
  inCount v h := by simp [State.readReg, State.input, h]
  inLo v h := by simp [State.readReg, State.input, h]
  inHi v h := by simp [State.readReg, State.input, h]
  inCode v h := by simp [State.readReg, State.input, h]
  outBuf v h := by simp [State.readReg, State.output, h]
  outRec v h := by simp [State.readReg, State.output, h]
  outCount v h := by simp [State.readReg, State.output, h]
  outLit v h := by simp [State.readReg, State.output, h]
  outLo v h := by simp [State.readReg, State.output, h]
  outHi v h := by simp [State.readReg, State.output, h]
  outCode v h := by simp [State.readReg, State.output, h]

@[simp] theorem writeInput_freeIdx (w : InputWrite) (s : State) : (writeInput w s).freeIdx = s.freeIdx := by
  cases w <;> rfl

theorem readReg_withPending (s : State) (rest : List HostAction) (r : HostReg) :
    State.readReg { s with pending := rest } r = s.readReg r := rfl

/-- Settles O6, one action at a time. -/
theorem otherHostActionsAreExact : Obligations.OtherHostActionsAreExact := by
  unfold Obligations.OtherHostActionsAreExact
  refine ⟨fun s w rest hp => ?_, fun s r rest hp => ?_, fun s r v rest hp hv => ?_, hostReads, fun s hp => ?_⟩
  · refine ⟨_, step_of_pending_cons hp, writeInput_input _ _, fun r hr => writeInput_input_ne hr.symm _,
      writeInput_pending _ _, { writeInput_sameOutputs w _ with }, writeInput_cmd _ _, writeInput_status _ _,
      writeInput_errDetail _ _, writeInput_wb _ _, writeInput_freeIdx _ _⟩
  · exact step_of_pending_cons hp
  · rw [step_of_pending_cons hp, hostAct, readReg_withPending, hv]
  · rw [step, hostStep, hp]

/-! ### Reset -/

theorem atReset_reset : AtReset State.reset where
  cmd := rfl
  status := rfl
  errDetail := rfl
  inputs r := by cases r <;> rfl
  outputs o := by cases o <;> rfl

theorem atReset_resetBlock (s : State) : AtReset (resetBlock s) :=
  { atReset_reset with }

/-- Settles O7: a reset of the host gives the registers of `State.reset`, and keeps the list of actions. -/
theorem resetLeavesTheSpecifiedValues : Obligations.ResetLeavesTheSpecifiedValues := by
  unfold Obligations.ResetLeavesTheSpecifiedValues
  exact ⟨atReset_reset, fun s rest hp => ⟨_, step_of_pending_cons hp, atReset_resetBlock _, rfl⟩⟩

/-! ### Inputs -/

theorem SameInputs.input {s t : State} (h : SameInputs s t) (r : InReg) : t.input r = s.input r := by
  obtain ⟨inRec, inBuf, inLit, inCount, inLo, inHi, inCode⟩ := h
  cases r <;> simp only [State.input, *]

/-- No CMD write, legal or not, changes an input (R24). -/
theorem runCommand_sameInputs {c : Byte} {s t : State} (h : runCommand c s = .next t) : SameInputs s t := by
  rcases runCommand_cases c s with ⟨i, -, hrun⟩ | ⟨-, hrun⟩
  · exact { exec_frame (hrun.symm.trans h) with }
  · rw [hrun] at h
    cases h
    exact ⟨rfl, rfl, rfl, rfl, rfl, rfl, rfl⟩

/-- Settles O8, by the cases of a step: besides a reset, only an input write touches an input, its own. -/
theorem inputsChangeOnlyByHostWriteOrReset : Obligations.InputsChangeOnlyByHostWriteOrReset := by
  unfold Obligations.InputsChangeOnlyByHostWriteOrReset
  intro s t r hstep hne
  rcases step_next hstep with ⟨-, rfl⟩ | ⟨w, rest, hp, rfl⟩ | ⟨c, rest, -, hrun⟩ | ⟨_, rest, -, rfl⟩ |
    ⟨_, rest, _, -, -, rfl⟩ | ⟨rest, hp, -⟩
  · exact absurd rfl hne
  · by_cases hw : w.reg = r
    · subst hw
      exact ⟨rest, .inr ⟨w, hp, rfl, writeInput_input w _⟩⟩
    · exact absurd (writeInput_input_ne hw _) hne
  · exact absurd ((runCommand_sameInputs hrun).input r) hne
  · exact absurd rfl hne
  · exact absurd rfl hne
  · exact ⟨rest, .inl hp⟩

/-! ### Duties -/

theorem inputsSet_iff (i : Instr) (s : State) : inputsSet i s = true ↔ ∀ r ∈ reads i, s.input r ≠ none := by
  simp [inputsSet, Option.isSome_iff_ne_none]

/-- The duty before a command is that its computation is there. -/
theorem inputsSet_eq_isSome (i : Instr) (s : State) : inputsSet i s = (result i s).isSome :=
  Bool.eq_iff_iff.mpr ((inputsSet_iff i s).trans (result_isSome i s).symm)

/-- What a dutiful or an undutiful host gets from a step. -/
def StopsUnless (duty : Bool) (out : Host.Outcome State Fault Refusal) : Prop :=
  (duty = true → ∃ t, out = .next t) ∧ (duty = false → ∃ f, out = .fault f)

theorem stopsUnless_next {out : Host.Outcome State Fault Refusal} (h : ∃ t, out = .next t) : StopsUnless true out :=
  ⟨fun _ => h, Bool.noConfusion⟩

theorem stopsUnless_fault {out : Host.Outcome State Fault Refusal} (h : ∃ f, out = .fault f) : StopsUnless false out :=
  ⟨Bool.noConfusion, fun _ => h⟩

theorem exec_stopsUnless (i : Instr) (s : State) : StopsUnless (inputsSet i s) (exec i s) := by
  rw [inputsSet_eq_isSome]
  cases hr : result i s with
  | none =>
    obtain ⟨r, -, -, hfault⟩ := exec_of_unset hr
    exact stopsUnless_fault ⟨_, hfault⟩
  | some x => exact stopsUnless_next (exec_of_result hr ▸ complete_next x s)

/-- The duty before a read is that the register holds a value to answer. -/
theorem dutyKept_read (r : HostReg) (s : State) : dutyKept (.read r) s = (s.readReg r).isOk := by
  cases r with
  | cmd | status | errDetail => rfl
  | input r =>
    simp only [dutyKept, State.readReg]
    cases s.input r <;> rfl
  | output r =>
    simp only [dutyKept, State.readReg]
    cases s.output r <;> rfl

theorem read_stopsUnless (r : HostReg) (s : State) : StopsUnless (dutyKept (.read r) s) (hostAct (.read r) s) := by
  rw [dutyKept_read, hostAct]
  cases s.readReg r with
  | ok v => exact stopsUnless_next ⟨s, rfl⟩
  | error f => exact stopsUnless_fault ⟨f, rfl⟩

/-- An action stops exactly when its duty is broken. -/
theorem hostAct_stopsUnless (a : HostAction) (s : State) : StopsUnless (dutyKept a s) (hostAct a s) := by
  cases a with
  | setInput w => exact stopsUnless_next ⟨_, rfl⟩
  | setCmd c =>
    cases hdec : Sys2Proof.decode c with
    | ok i =>
      simp only [dutyKept, hdec, hostAct_setCmd, runCommand_of_decode hdec]
      exact exec_stopsUnless i { s with cmd := c }
    | error reject =>
      simp only [dutyKept, hdec, hostAct_setCmd, runCommand]
      exact stopsUnless_next (complete_next _ _)
  | setReadOnly r => exact stopsUnless_next ⟨_, rfl⟩
  | read r => exact read_stopsUnless r s
  | reset => exact stopsUnless_next ⟨_, rfl⟩

/-- Settles O12: an idle step goes on, and any other step is the host's oldest action. -/
theorem stepsStopExactlyOnBrokenDuties : Obligations.StepsStopExactlyOnBrokenDuties := by
  unfold Obligations.StepsStopExactlyOnBrokenDuties
  intro s
  show StopsUnless (hostDutiful s) (step s)
  cases hp : s.pending with
  | nil =>
    simp only [hostDutiful, step, hostStep, hp]
    exact stopsUnless_next ⟨s, rfl⟩
  | cons a rest =>
    simp only [hostDutiful, hp, step_of_pending_cons hp]
    exact hostAct_stopsUnless a { s with pending := rest }

/-! ### Results -/

/-- What a computation writes to the outputs `Begin` cleared does not depend on the rest of the state. -/
theorem result_sameOutputs {i : Instr} {s : State} {w : State → State} (h : result i s = some (.ok w)) (s' : State) :
    SameOutputs (w (clearOutputs s)) (w (clearOutputs s')) := by
  cases i with simp only [result, Option.map_eq_some_iff, Option.bind_eq_some_iff, map_eq_ok, Except.ok.injEq] at h
  | decRomSizePrg | decRomSizeChr =>
    obtain ⟨lo, -, hi, -, p, -, rfl⟩ := h
    exact ⟨rfl, rfl, rfl, rfl, rfl, rfl, rfl⟩
  | decRamSize =>
    obtain ⟨c, -, rfl⟩ := h
    exact ⟨rfl, rfl, rfl, rfl, rfl, rfl, rfl⟩
  | encode | decode | parseSize | encRomSizePrg | encRomSizeChr | encRamSize =>
    obtain ⟨v, -, p, -, rfl⟩ := h
    exact ⟨rfl, rfl, rfl, rfl, rfl, rfl, rfl⟩

/-- Settles O13: the computation depends on the inputs the command reads alone, and so does what it writes. -/
theorem resultsDependOnlyOnNamedInputs : Obligations.ResultsDependOnlyOnNamedInputs := by
  unfold Obligations.ResultsDependOnlyOnNamedInputs
  intro i s s' t hagree hexec
  have same := result_congr hagree
  rcases exec_next hexec with ⟨w, hw, rfl⟩ | ⟨e, he, rfl⟩
  · exact ⟨_, exec_of_result (same.trans hw), rfl, rfl, { result_sameOutputs hw s' with }⟩
  · exact ⟨_, exec_of_result (same.trans he), rfl, rfl, ⟨rfl, rfl, rfl, rfl, rfl, rfl, rfl⟩⟩

end Sys2Proof.Machine
end

section
/-!
PROOF. The invariant at reset, and the fields of STATUS it allows (R22).
-/
namespace Sys2Proof.Machine

/-- Settles O39: IDLE, no detail, no output. -/
theorem invHoldsAtReset : Obligations.InvHoldsAtReset where
  status := .idle
  outputs _ := atReset_reset.outputs
  idle _ := rfl
  literal l h := by cases h
  record q h := by cases h
  buffer b h := by cases h

/-! ### The fields of an error's STATUS -/

theorem statusReserved_statusError (k : ErrKind) (f : FieldId) : statusReserved (statusError k f) = 0 := by
  cases k <;> cases f <;> rfl

theorem statusState_statusError (k : ErrKind) (f : FieldId) : statusState (statusError k f) = 2 := by
  cases k <;> cases f <;> rfl

theorem statusField_statusError (k : ErrKind) (f : FieldId) : statusField (statusError k f) = f.code := by
  cases k <;> cases f <;> rfl

/-- No kind has code 0, which STATUS keeps for no error (R201). -/
theorem errKind_code_range (k : ErrKind) : k.code ≠ 0 ∧ k.code.toNat ≤ 11 := by
  cases k <;> decide

theorem fieldId_code_le (f : FieldId) : f.code.toNat ≤ 11 := by
  cases f <;> decide

/-- The fields of a STATUS the invariant allows (R22). -/
theorem StatusLegal.fields {v : BitVec 16} {d : Detail} (h : StatusLegal v d) :
    statusReserved v = 0 ∧ (statusState v).toNat ≤ 2 ∧ (statusKind v).toNat ≤ 11 ∧ (statusField v).toNat ≤ 11 ∧
      (statusState v = 2 ↔ statusKind v ≠ 0) ∧ (statusState v ≠ 2 → statusField v = 0) := by
  cases h with
  | idle | ok => decide
  | error k f d _ =>
    obtain ⟨hne, hle⟩ := errKind_code_range k
    rw [statusReserved_statusError, statusState_statusError, statusKind_statusError, statusField_statusError]
    exact ⟨rfl, by decide, hle, fieldId_code_le f, iff_of_true rfl hne, fun h => absurd rfl h⟩

/-- Settles O41: the invariant holds STATUS to its legal values, and those have legal fields. -/
theorem statusFieldsAreLegal : Obligations.StatusFieldsAreLegal := by
  unfold Obligations.StatusFieldsAreLegal
  intro s hs
  exact hs.status.fields

end Sys2Proof.Machine
end
